-- ==== Sys2Proof/Word.lean ====
section
/-! DEFINITION. The widths of the block, all fixed (00_scope.md R6, 30_encoding.md R30, R35). -/
namespace Sys2Proof

/-- STATE, TAPS, a seed, a tap mask: 16 bits (10_state.md R10, R11). -/
abbrev Word := BitVec 16

/-- A keystream byte, a data byte, a byte of the host's buffer: 8 bits (00_scope.md R6, 20_memory.md R21). -/
abbrev Byte := BitVec 8

/-- A command word `cmd[34:0]` (30_encoding.md R30). -/
abbrev CmdWord := BitVec 35

/-- The opcode field `cmd[34:32]` (30_encoding.md R30). -/
abbrev Opcode := BitVec 3

/-- A response word `rsp[9:0]` (30_encoding.md R35). -/
abbrev RspWord := BitVec 10

end Sys2Proof
end

