-- ==== Sys2Proof/Syntax.lean ====
section
/-! DEFINITION. The four commands of spec/opcode_table.json and what decoding a command word can give (30_encoding.md
R31, R37). -/
namespace Sys2Proof

/-- The commands, one constructor per row of the opcode table, with the operands of 30_encoding.md R32. -/
inductive Instr where
  /-- INIT seed, taps: constructs the Register (40_init.md R40). -/
  | init (seed taps : Word)
  /-- STEP: one step of the register (41_step.md R49). -/
  | step
  /-- NEXTB: the next keystream byte (42_next_byte.md R58). -/
  | nextb
  /-- XORB data: one data byte through the stream transform (43_stream_transform.md R62). -/
  | xorb (data : Byte)
  deriving DecidableEq, Repr

/-- The set decoding maps into: a command, or Illegal with the reserved opcode that was found (30_encoding.md R37, R33). -/
inductive Decoded where
  | command (i : Instr)
  | illegal (op : Opcode)
  deriving DecidableEq, Repr

/-- The command a decoded word names, if it names one. -/
def Decoded.command? : Decoded → Option Instr
  | .command i => some i
  | .illegal _ => none

end Sys2Proof
end

