-- ==== Sys2Proof/WellFormed.lean ====
section
/-! DEFINITION. Well-formed commands and canonical command words (30_encoding.md R32, R34, R37). -/
namespace Sys2Proof

/-- Every command is well-formed: its operand types are exactly the operand fields, so "no out-of-range operand can be
expressed" (30_encoding.md R32), and "a model must not add a well-formedness condition on taps to INIT" (40_init.md R42). -/
def Instr.wf : Instr → Bool
  | .init _ _ => true
  | .step => true
  | .nextb => true
  | .xorb _ => true

/-- The canonical command words: a command's opcode, with every bit the command ignores 0 (30_encoding.md R34, R37). -/
def canonical (w : CmdWord) : Bool :=
  match (w.extractLsb' 32 3).toNat with
  | 1 => true
  | 2 => w.extractLsb' 0 32 == 0#32
  | 3 => w.extractLsb' 0 32 == 0#32
  | 4 => w.extractLsb' 8 24 == 0#24
  | _ => false

end Sys2Proof
end

