-- ==== Sys2Proof/Decode.lean ====
section
/-! DEFINITION. The command word: its fields (30_encoding.md R30, R32), the decoder, total (R37), the encoder (R37's canonical
encoding), and the same word as spec/opcode_table.json numbers it. -/
namespace Sys2Proof

/-- `op = cmd[34:32]` (30_encoding.md R30). -/
def opField (w : CmdWord) : Opcode := w.extractLsb' 32 3

/-- `a = cmd[31:16]`, the seed of INIT (30_encoding.md R30, R32). -/
def aField (w : CmdWord) : Word := w.extractLsb' 16 16

/-- `b = cmd[15:0]`, the tap mask of INIT (30_encoding.md R30, R32). -/
def bField (w : CmdWord) : Word := w.extractLsb' 0 16

/-- `cmd[7:0]`, the data byte of XORB (30_encoding.md R30, R32). -/
def dataField (w : CmdWord) : Byte := w.extractLsb' 0 8

/-- The opcode map of 30_encoding.md R31. -/
def opInit : Opcode := 0b001#3
def opStep : Opcode := 0b010#3
def opNextb : Opcode := 0b011#3
def opXorb : Opcode := 0b100#3

/-- A total function from the 2^35 command words (30_encoding.md R37); the four reserved opcodes are Illegal (R33), and the
bits a command does not use are ignored (R34). -/
def decode (w : CmdWord) : Decoded :=
  if opField w = opInit then .command (.init (aField w) (bField w))
  else if opField w = opStep then .command .step
  else if opField w = opNextb then .command .nextb
  else if opField w = opXorb then .command (.xorb (dataField w))
  else .illegal (opField w)

/-- The word `{op, a, b}` (30_encoding.md R30). -/
def packWord (op : Opcode) (a b : Word) : CmdWord :=
  (op.setWidth 35 <<< 32) ||| (a.setWidth 35 <<< 16) ||| b.setWidth 35

/-- The canonical encoding: every ignored bit 0 (30_encoding.md R37). -/
def encode : Instr → CmdWord
  | .init seed taps => packWord opInit seed taps
  | .step => packWord opStep 0x0000#16 0x0000#16
  | .nextb => packWord opNextb 0x0000#16 0x0000#16
  | .xorb data => packWord opXorb 0x0000#16 (data.setWidth 16)

/-- The command word that a table word of `nbits` bits stands for. Bit i of the number is `cmd[i]`. The table counts in whole
bytes and a command word has 35 bits ("bit 35 does not exist", 30_encoding.md R38), so a number that needs more is no command
word. DEDUCED, safe, log 7. -/
def tableWord (nbits w : Nat) : Option CmdWord :=
  if w % 2 ^ nbits < 2 ^ 35 then some (BitVec.ofNat 35 (w % 2 ^ nbits)) else none

/-- What the decoder reads from a word numbered as spec/opcode_table.json numbers it; none for a reserved opcode. -/
def decodeTableWord (nbits w : Nat) : Option Instr :=
  match tableWord nbits w with
  | some c => (decode c).command?
  | none => none

end Sys2Proof
end

