-- ==== Sys2Proof/Config.lean ====
section
/-! DEFINITION. What an implementation fixes: the parameter of 00_scope.md R6 that the operations read, and the two values
the spec leaves open at reset (10_state.md R18). The operand widths are the types of Sys2Proof/Word.lean. -/
namespace Sys2Proof.Config

/-- Steps per keystream byte: 00_scope.md R6, 42_next_byte.md R57 ("exactly 8 times"). -/
abbrev stepsPerByte : Nat := 8

/-- STATE while LOADED = 0. The spec gives none and says none is observable (10_state.md R18: "if it must pick a number,
any number is exact"). DESIGN CHOICE, unsafe, log 2. -/
def resetState : BitVec 16 := 0x0000#16

/-- TAPS while LOADED = 0. As `resetState`: DESIGN CHOICE, unsafe, log 2. -/
def resetTaps : BitVec 16 := 0x0000#16

end Sys2Proof.Config
end

