-- ==== Sys2Proof/Machine/State.lean ====
section
/-! DEFINITION. The state of the machine as plain data: the core's three registers (10_state.md R10 to R12), its response
port (R17), and the one host agent (00_scope.md R8). -/
namespace Sys2Proof.Machine

/-- The three status codes that exist; 0b11 is "never produced" (30_encoding.md R36, 93_implementation_defined.md V5). -/
inductive Status where
  | ok
  | illegalCommand
  | notLoaded
  deriving DecidableEq, Repr

/-- A response: status and data (30_encoding.md R35). Its 10-bit word is `Response.word` of Machine/Flags.lean. -/
structure Response where
  st : Status
  data : Byte
  deriving DecidableEq, Repr

/-- The two faults the core reports in a response (60_exceptions.md R72, R73). The core goes on after either. -/
inductive CoreFault where
  | illegalCommand
  | notLoaded
  deriving DecidableEq, Repr

/-- What the host does next at the port (10_state.md R17). DESIGN CHOICE, log 3, log 10. -/
inductive HostAction where
  /-- `cmd_valid` = 1 and `rst` = 0 while `cmd_ready` = 1: the word is accepted. -/
  | command (w : CmdWord)
  /-- The pseudo-command APPLY over the `n` bytes of host memory from `base` (30_encoding.md R39, 43_stream_transform.md R64). -/
  | apply (base n : Nat)
  /-- `cmd_valid` = 0 and `rst` = 0. -/
  | idle
  /-- `rst` = 1 on an edge; a command offered on it is not accepted (60_exceptions.md R76, 70_reset_and_hazards.md R82). -/
  | reset (offered : Option CmdWord)
  /-- A command accepted, and `rst` asserted before its response (70_reset_and_hazards.md R84). -/
  | abandon (w : CmdWord)
  deriving DecidableEq, Repr

/-- The host's byte memory, address and byte, addresses strictly rising; an address not listed holds no byte (20_memory.md R21).
DESIGN CHOICE, log 5. -/
abbrev Memory := List Host.Cell

/-- Core registers, response port, host agent. -/
structure State where
  /-- STATE, the shift register (10_state.md R10). -/
  state : Word
  /-- TAPS, the tap mask (10_state.md R11). -/
  taps : Word
  /-- LOADED, whether a Register has been constructed since reset (10_state.md R12). -/
  loaded : Bool
  /-- The response port: `some r` is `rsp_valid` = 1 with `rsp` = r's word, as the last transition left it (10_state.md R17). -/
  rsp : Option Response
  /-- The host's: what it does next, first entry first (00_scope.md R8, 10_state.md R17). -/
  agenda : List HostAction
  /-- The host's: the responses it has taken, oldest first (00_scope.md R8, 20_memory.md R26). -/
  received : List Response
  /-- The host's byte buffers (20_memory.md R20, R21). -/
  mem : Memory
  deriving DecidableEq, Repr

/-- Where the MODEL stops. No rule of the spec stops the machine: its two faults are responses (`CoreFault`). -/
inductive Fault where
  /-- Raised by APPLY when the host's memory has no byte at the address it reads; MemRead is defined only inside the buffer
  (20_memory.md R21). The model stops where the spec defines nothing: safe. Log 5. -/
  | bufferByteAbsent (address : Nat)
  deriving DecidableEq, Repr

/-- Refusals. -/
inductive Refusal where
  /-- Raised by an arm of `exec` whose instruction has no meaning yet (there is none). Safe: the model stops. -/
  | notModelled (mnemonic : String)
  deriving DecidableEq, Repr

/-- The machine right after reset (10_state.md R18, 70_reset_and_hazards.md R83): LOADED = 0, no response on the port. STATE and
TAPS hold the values of Config (log 2), the host's data are empty (log 3, 5, 8). -/
def State.reset : State where
  state := Config.resetState
  taps := Config.resetTaps
  loaded := false
  rsp := none
  agenda := []
  received := []
  mem := []

end Sys2Proof.Machine
end

