-- ==== Sys2Proof/Machine/Flags.lean ====
section
/-! DEFINITION. The one flag, LOADED (10_state.md R12), the status codes (30_encoding.md R36), and the core's output ports (10_state.md
R17). No operation produces a carry, overflow, zero or sign indication (R16). -/
namespace Sys2Proof.Machine

/-- INIT's flag write, LOADED <- 1 (40_init.md R40). -/
def setLoaded (s : State) : State := { s with loaded := true }

/-- Reset's flag write, LOADED <- 0 (70_reset_and_hazards.md R82). -/
def clearLoaded (s : State) : State := { s with loaded := false }

/-- The two status bits (30_encoding.md R36). -/
def Status.code : Status → BitVec 2
  | .ok => 0b00#2
  | .illegalCommand => 0b01#2
  | .notLoaded => 0b10#2

/-- `code(<Fault>)` as a status (60_exceptions.md R74 and the table of section 2). -/
def CoreFault.status : CoreFault → Status
  | .illegalCommand => .illegalCommand
  | .notLoaded => .notLoaded

/-- The response word `{st, data}` (30_encoding.md R35). -/
def Response.word (r : Response) : RspWord := (r.st.code.setWidth 10 <<< 8) ||| r.data.setWidth 10

/-- Port `rsp_valid` (10_state.md R17). -/
def State.rspValid (s : State) : Bool := s.rsp.isSome

/-- Port `rsp`, meaningful only while `rsp_valid` = 1 (10_state.md R17). -/
def State.rspWord (s : State) : Option RspWord := s.rsp.map Response.word

/-- Port `cmd_ready` between two transactions: the core is idle (10_state.md R17, 60_exceptions.md R81). Log 1. -/
def State.cmdReady (_ : State) : Bool := true

end Sys2Proof.Machine
end

