-- ==== Sys2Proof/Machine/Operands.lean ====
section
/-! DEFINITION. What a command makes of its operands and of the bits it delivers (40_init.md R41, 30_encoding.md R35, 43_stream_transform.md
R62). Taking the operands out of the command word is in Sys2Proof/Decode.lean. -/
namespace Sys2Proof.Machine

/-- The state a seed gives: "if the supplied seed is zero, substitute the value 1" (40_init.md R41); no other seed is altered. -/
def coerceSeed (seed : Word) : Word := if seed = 0x0000#16 then 0x0001#16 else seed

/-- A single bit as a value of `n` bits, `zext_n` (00_scope.md section 6.1). -/
def zextBit (n : Nat) (o : Bool) : BitVec n := (BitVec.ofBool o).setWidth n

/-- The response data of STEP, `zext_8(output_bit)` (30_encoding.md R35). -/
def bitAsByte (o : Bool) : Byte := zextBit 8 o

/-- The response data of XORB, the bitwise XOR of data byte and keystream byte (43_stream_transform.md R62). -/
def combine (data k : Byte) : Byte := data ^^^ k

end Sys2Proof.Machine
end

