-- ==== Sys2Proof/Machine/Ops.lean ====
section
/-! DEFINITION. The shared operations: parity, the step and the serializer (41_step.md, 42_next_byte.md), responding, taking a fault and
reset (60_exceptions.md, 70_reset_and_hazards.md), and the host's byte memory (20_memory.md). -/
namespace Sys2Proof.Machine

/-- The XOR of the 16 bits of `v` (41_step.md R45). -/
def parity16 (v : Word) : Bool :=
  v.getLsbD 15 ^^ v.getLsbD 14 ^^ v.getLsbD 13 ^^ v.getLsbD 12 ^^ v.getLsbD 11 ^^ v.getLsbD 10 ^^ v.getLsbD 9 ^^ v.getLsbD 8
    ^^ v.getLsbD 7 ^^ v.getLsbD 6 ^^ v.getLsbD 5 ^^ v.getLsbD 4 ^^ v.getLsbD 3 ^^ v.getLsbD 2 ^^ v.getLsbD 1 ^^ v.getLsbD 0

/-- The feedback bit of a step, from the old STATE (41_step.md R46). -/
def feedback (taps st : Word) : Bool := parity16 (st &&& taps)

/-- The output bit of a step, "read out before the shift" (41_step.md R46, R47). -/
def outputBit (st : Word) : Bool := st.getLsbD 0

/-- The new STATE of a step, `(STATE >> 1) | (feedback << 15)` (41_step.md R46, R48). -/
def nextState (taps st : Word) : Word := (st >>> 1) ||| (zextBit 16 (feedback taps st) <<< 15)

/-- `Step()`: writes STATE, leaves all else, returns the output bit (41_step.md R46). -/
def clock (s : State) : State × Bool := ({ s with state := nextState s.taps s.state }, outputBit s.state)

/-- `k[i] = o` on an accumulator whose bit `i` is still 0 (42_next_byte.md R57). -/
def placeBit (k : Byte) (i : Nat) (o : Bool) : Byte := k ||| (zextBit 8 o <<< i)

/-- The serializer's loop: `left` more steps, the next bit going to bit `i` of `k` (42_next_byte.md R57). -/
def clockBits : Nat → Nat → Byte → State → State × Byte
  | 0, _, k, s => (s, k)
  | left + 1, i, k, s => clockBits left (i + 1) (placeBit k i (clock s).2) (clock s).1

/-- `NextByte()`: eight steps, the first bit at bit 0 (42_next_byte.md R57, R59). -/
def nextByte (s : State) : State × Byte := clockBits Config.stepsPerByte 0 0x00#8 s

/-- STATE after `n` steps under one tap mask: `S_n` of 41_step.md R53, from `S_0` = `st`. -/
def advance (taps : Word) : Nat → Word → Word
  | 0, st => st
  | n + 1, st => advance taps n (nextState taps st)

/-- `a(t)` of 41_step.md R53: the bit the `t`-th step after `S_0` = `st` returns. -/
def outputAt (taps st : Word) (t : Nat) : Bool := outputBit (advance taps t st)

/-- `respond(st, d)` (00_scope.md section 6.2, 30_encoding.md R35). -/
def respond (st : Status) (d : Byte) (s : State) : State := { s with rsp := some ⟨st, d⟩ }

/-- `raise <Fault>`, the whole fault mechanism: nothing of STATE, TAPS, LOADED is written, the response is the code with data 0x00,
and the core is ready for the next command (60_exceptions.md R74). Nothing is saved, so there is no return operation (R78). -/
def raise (f : CoreFault) (s : State) : State := respond f.status 0x00#8 s

/-- The LOADED check that STEP, NEXTB and XORB begin with: NotLoaded, or the command's own effect (60_exceptions.md R73). -/
def whenLoaded (s effect : State) : State := if s.loaded then effect else raise .notLoaded s

/-- An edge on which the core neither responds nor changes a register (10_state.md R17). -/
def quiet (s : State) : State := { s with rsp := none }

/-- Reset: LOADED <- 0, no response owed (70_reset_and_hazards.md R82, R83). STATE and TAPS are unspecified and unobservable; the model
gives them their values of State.reset: DESIGN CHOICE, unsafe, log 11. -/
def resetCore (s : State) : State :=
  { clearLoaded s with state := Config.resetState, taps := Config.resetTaps, rsp := none }

/-- MemRead(a, 1): the byte at `a`, if the host's memory has one (20_memory.md R21). -/
def memRead : Memory → Nat → Option Byte
  | [], _ => none
  | (b, v) :: m, a => if b = a then some v else memRead m a

/-- MemWrite(a, 1, v), keeping the addresses rising (20_memory.md R21). -/
def memWrite : Memory → Nat → Byte → Memory
  | [], a, v => [(a, v)]
  | (b, w) :: m, a, v =>
    if a < b then (a, v) :: (b, w) :: m
    else if b = a then (a, v) :: m
    else (b, w) :: memWrite m a v

/-- A buffer `bytes` laid down at `base`, index 0 first: how host memory gets its contents (20_memory.md R21; log 5). -/
def memPlace : Memory → Nat → List Byte → Memory
  | m, _, [] => m
  | m, base, v :: vs => memPlace (memWrite m base v) (base + 1) vs

/-- The canonical form: addresses strictly rising. An unlisted address reads as no byte, so no entry can equal that. -/
abbrev Memory.wf (m : Memory) : Prop := m.Pairwise (fun c d => c.1 < d.1)

end Sys2Proof.Machine
end

