-- ==== Sys2Proof/Machine/Construct.lean ====
section
/-! DEFINITION. The family of 40_init.md: INIT. -/
namespace Sys2Proof.Machine

/-- INIT seed, taps (40_init.md R40): constructs the Register, whatever was there (R43), without a step (R44); never faults. -/
def execInit (seed taps : Word) (s : State) : Host.Outcome State Fault Refusal :=
  .next (respond .ok 0x00#8 (setLoaded { s with state := coerceSeed seed, taps := taps }))

end Sys2Proof.Machine
end

