-- ==== Sys2Proof/Machine/Keystream.lean ====
section
/-! DEFINITION. The families of 41_step.md and 42_next_byte.md: STEP and NEXTB, which deliver keystream. -/
namespace Sys2Proof.Machine

/-- STEP (41_step.md R49): NotLoaded, or one step and its output bit. -/
def execStep (s : State) : Host.Outcome State Fault Refusal :=
  .next (whenLoaded s (respond .ok (bitAsByte (clock s).2) (clock s).1))

/-- NEXTB (42_next_byte.md R58): NotLoaded, or eight steps and the keystream byte. -/
def execNextb (s : State) : Host.Outcome State Fault Refusal :=
  .next (whenLoaded s (respond .ok (nextByte s).2 (nextByte s).1))

end Sys2Proof.Machine
end

