-- ==== Sys2Proof/Machine/Stream.lean ====
section
/-! DEFINITION. The family of 43_stream_transform.md: XORB. The host's loop over it, APPLY, is Machine/HostLoop.lean. -/
namespace Sys2Proof.Machine

/-- XORB data (43_stream_transform.md R62): NotLoaded, or eight steps and the data byte XOR the keystream byte. The data byte never
enters the register. -/
def execXorb (data : Byte) (s : State) : Host.Outcome State Fault Refusal :=
  .next (whenLoaded s (respond .ok (combine data (nextByte s).2) (nextByte s).1))

end Sys2Proof.Machine
end

