-- ==== Sys2Proof/Machine/Dispatch.lean ====
section
/-! DEFINITION. One arm per command (30_encoding.md R31). -/
namespace Sys2Proof.Machine

def exec (i : Instr) (s : State) : Host.Outcome State Fault Refusal :=
  match i with
  | .init seed taps => Sys2Proof.Machine.execInit seed taps s
  | .step => Sys2Proof.Machine.execStep s
  | .nextb => Sys2Proof.Machine.execNextb s
  | .xorb data => Sys2Proof.Machine.execXorb data s

end Sys2Proof.Machine
end

