-- ==== Sys2Proof/Machine/Port.lean ====
section
/-! DEFINITION. The command port: accepting one word, and the host taking the response (10_state.md R17, 20_memory.md R26). -/
namespace Sys2Proof.Machine

/-- An accepted word is decoded first, so a reserved opcode raises IllegalCommand whatever LOADED is (60_exceptions.md R72, R76); any other
word runs its command to completion. -/
def accept (w : CmdWord) (s : State) : Host.Outcome State Fault Refusal :=
  match decode w with
  | .command i => exec i s
  | .illegal _ => .next (raise .illegalCommand s)

/-- The host takes the response in the cycle it is given (10_state.md R17); responses are in command order (20_memory.md R26). -/
def hostTakes (s : State) : State :=
  match s.rsp with
  | some r => { s with received := s.received ++ [r] }
  | none => s

/-- Goes on with `f` after a next state; a stop stays a stop. -/
def onNext (o : Host.Outcome State Fault Refusal) (f : State → Host.Outcome State Fault Refusal) :
    Host.Outcome State Fault Refusal :=
  match o with
  | .next s => f s
  | .fault r => .fault r
  | .refused r => .refused r

/-- `issue(C)`: the host issues a word and takes its response (00_scope.md section 6.2). -/
def issue (w : CmdWord) (s : State) : Host.Outcome State Fault Refusal :=
  onNext (accept w s) (fun t => .next (hostTakes t))

end Sys2Proof.Machine
end

