-- ==== Sys2Proof/Machine/HostLoop.lean ====
section
/-! DEFINITION. The host-side pseudo-command APPLY, one XORB at a time (30_encoding.md R39, 43_stream_transform.md R64). -/
namespace Sys2Proof.Machine

/-- The expansion of `APPLY buf, n` over the buffer's bytes: `n` XORB words (30_encoding.md R39). -/
def expandApply (bytes : List Byte) : List HostAction := bytes.map (fun p => .command (encode (.xorb p)))

/-- After the XORB of the byte at `base`: on status OK the host writes the response's data byte back and has `n` bytes to go; on
a fault it writes nothing and leaves the loop ("the host must not write the fault response's data byte … and should stop",
43_stream_transform.md R64). DESIGN CHOICE: it always stops; log 6. -/
def storeResult (base n : Nat) (s : State) : State :=
  match s.rsp with
  | some ⟨.ok, c⟩ => { s with mem := memWrite s.mem base c, agenda := .apply (base + 1) n :: s.agenda }
  | some ⟨.illegalCommand, _⟩ => s
  | some ⟨.notLoaded, _⟩ => s
  | none => s

/-- One pass of the loop of 43_stream_transform.md R64, with `n` bytes left after this one. -/
def applyByte (base n : Nat) (s : State) : Host.Outcome State Fault Refusal :=
  match memRead s.mem base with
  | some p => onNext (issue (encode (.xorb p)) s) (fun t => .next (storeResult base n t))
  | none => .fault (.bufferByteAbsent base)

/-- What the host's next action does, with the rest of its agenda already in `s`. -/
def act (a : HostAction) (s : State) : Host.Outcome State Fault Refusal :=
  match a with
  | .command w => issue w s
  | .apply _ 0 => .next (quiet s)
  | .apply base (n + 1) => applyByte base n s
  | .idle => .next (quiet s)
  | .reset _ => .next (resetCore s)
  | .abandon _ => .next (resetCore s)

end Sys2Proof.Machine
end

