-- ==== Sys2Proof/Machine/Step.lean ====
section
/-! DEFINITION. One transition of the machine: the host's next action, or an idle edge when it has none (00_scope.md R7, 10_state.md R17). -/
namespace Sys2Proof.Machine

/-- Takes the first entry off the host's agenda and carries it out. -/
def step (s : State) : Host.Outcome State Fault Refusal :=
  match s.agenda with
  | [] => .next (quiet s)
  | a :: rest => act a { s with agenda := rest }

/-- The word, numbered as the opcode table numbers it, offered next at the command port: put before everything else the host
will do. Commands come from outside the machine, so this stands for the host sending one (log 4). A number that is no command
word cannot be offered and changes nothing (log 7). -/
def State.withFetchWord (s : State) (nbits w : Nat) : State :=
  match tableWord nbits w with
  | some c => { s with agenda := .command c :: s.agenda }
  | none => s

end Sys2Proof.Machine
end

