-- ==== Sys2Proof/Machine/Assembly.lean ====
section
/-! DEFINITION. The text of a command, one line each (30_encoding.md R38, R39). The spec calls the syntax "not behavioural"
(92_eei_decisions.md D22); what it leaves open of it is log 12. -/
namespace Sys2Proof.Machine

/-- What one line of text says: nothing (blank, or a comment only), or one action of the host. -/
inductive SourceLine where
  | empty
  | action (a : HostAction)
  deriving DecidableEq, Repr

/-- A blank between the parts of a line. Log 12. -/
def isBlank (c : Char) : Bool := c == ' ' || c == '\t'

/-- Without leading and trailing blanks. -/
def trimBlanks (cs : List Char) : List Char := ((cs.dropWhile isBlank).reverse.dropWhile isBlank).reverse

/-- What stands before the first `c`, and what stands after it if there is one. -/
def cutAt (c : Char) : List Char → List Char × Option (List Char)
  | [] => ([], none)
  | d :: ds => if d = c then ([], some ds) else (d :: (cutAt c ds).1, (cutAt c ds).2)

/-- The value of a digit in a base up to sixteen. -/
def digitValue (base : Nat) (c : Char) : Option Nat :=
  let v := if '0' ≤ c ∧ c ≤ '9' then some (c.toNat - 48)
    else if 'A' ≤ c ∧ c ≤ 'F' then some (c.toNat - 55)
    else if 'a' ≤ c ∧ c ≤ 'f' then some (c.toNat - 87)
    else none
  v.filter (· < base)

/-- The value of a run of digits, read after a value `acc`. -/
def digitsValue (base acc : Nat) : List Char → Option Nat
  | [] => some acc
  | c :: cs =>
    match digitValue base c with
    | some v => digitsValue base (base * acc + v) cs
    | none => none

/-- "Numerals are `0x` hexadecimal or decimal" (30_encoding.md R38). -/
def numeral : List Char → Option Nat
  | [] => none
  | ['0', 'x'] => none
  | '0' :: 'x' :: cs => digitsValue 16 0 cs
  | cs => digitsValue 10 0 cs

/-- The comma-separated operands of a line; at most two occur. -/
def operands (cs : List Char) : Option (List Nat) :=
  match cs with
  | [] => some []
  | _ =>
    match cutAt ',' cs with
    | (a, none) => (numeral (trimBlanks a)).map (fun x => [x])
    | (a, some b) =>
      match numeral (trimBlanks a), numeral (trimBlanks b) with
      | some x, some y => some [x, y]
      | _, _ => none

/-- The table of 30_encoding.md R38 and the pseudo-command of R39. An operand fills its field from bit 0 up (`seed[15:0]`,
`taps[15:0]`, `data[7:0]`); the buffer of APPLY is written as its base address (log 12). -/
def lineAction (name : List Char) (ops : List Nat) : Option HostAction :=
  match ops with
  | [] =>
    if name = ['S', 'T', 'E', 'P'] then some (.command (encode .step))
    else if name = ['N', 'E', 'X', 'T', 'B'] then some (.command (encode .nextb))
    else none
  | [x] => if name = ['X', 'O', 'R', 'B'] then some (.command (encode (.xorb (BitVec.ofNat 8 x)))) else none
  | [x, y] =>
    if name = ['I', 'N', 'I', 'T'] then some (.command (encode (.init (BitVec.ofNat 16 x) (BitVec.ofNat 16 y))))
    else if name = ['A', 'P', 'P', 'L', 'Y'] then some (.apply x y)
    else none
  | _ => none

/-- One line: "a mnemonic followed by comma-separated operands", and "a `;` starts a comment" (30_encoding.md R38); none for a line
that is neither a command nor empty. -/
def assembleLine (line : List Char) : Option SourceLine :=
  let body := trimBlanks (cutAt ';' line).1
  match body with
  | [] => some .empty
  | _ =>
    match operands (trimBlanks (body.dropWhile (fun c => !isBlank c))) with
    | some ops => (lineAction (body.takeWhile (fun c => !isBlank c)) ops).map .action
    | none => none

/-- The lines of a text as the host's agenda, in order; none if a line does not read. -/
def assemble : List (List Char) → Option (List HostAction)
  | [] => some []
  | l :: ls =>
    match assembleLine l, assemble ls with
    | some .empty, some as => some as
    | some (.action a), some as => some (a :: as)
    | _, _ => none

end Sys2Proof.Machine
end

