-- ==== Sys2Proof/Safety.lean ====
section
/-! DEFINITION. The terms claims use: runs, the invariants of the machine, agendas that never leave the host's memory, and
what two machines may differ in before the first INIT. -/
namespace Sys2Proof.Machine

/-- `k` transitions, stopping at the first stop. -/
def runSteps : Nat → State → Host.Outcome State Fault Refusal
  | 0, s => .next s
  | k + 1, s => onNext (step s) (runSteps k)

/-- The next state of an outcome, if it is one. -/
def nextOf : Host.Outcome State Fault Refusal → Option State
  | .next s => some s
  | .fault _ => none
  | .refused _ => none

/-- The non-zero invariant as it really holds: with bit 0 tapped, a loaded register is never 0x0000 (10_state.md R13, 41_step.md R52). -/
abbrev NonZeroInv (s : State) : Prop := s.loaded = true → s.taps.getLsbD 0 = true → s.state ≠ 0x0000#16

/-- A response that reports a fault carries data 0x00 (60_exceptions.md R74). -/
abbrev Response.sound (r : Response) : Prop := r.st ≠ .ok → r.data = 0x00#8

/-- Every response the machine shows or has shown is sound. -/
abbrev ResponsesSound (s : State) : Prop := (∀ r ∈ s.rsp, r.sound) ∧ ∀ r ∈ s.received, r.sound

/-- No fault has been recorded (the fault log that 60_exceptions.md R78 advises to read off the responses). -/
abbrev NoFaultRecorded (s : State) : Prop := ∀ r ∈ s.received, r.st = .ok

/-- The host's memory has a byte at every address of the buffer (20_memory.md R21). -/
abbrev BufferPresent (m : Memory) (base n : Nat) : Prop := ∀ i, i < n → (memRead m (base + i)).isSome = true

/-- The action reads no byte outside the host's memory. -/
def HostAction.inBounds (m : Memory) : HostAction → Prop
  | .command _ => True
  | .apply base n => BufferPresent m base n
  | .idle => True
  | .reset _ => True
  | .abandon _ => True

/-- Every action the host has in hand stays inside its memory. -/
def AgendaInBounds (s : State) : Prop := ∀ a ∈ s.agenda, a.inBounds s.mem

/-- The same host, port and LOADED, and the same Register if there is one: STATE and TAPS may differ while LOADED = 0
(10_state.md R18, 70_reset_and_hazards.md R83). -/
structure SameButHidden (s t : State) : Prop where
  loaded : t.loaded = s.loaded
  register : s.loaded = true → t.state = s.state ∧ t.taps = s.taps
  rsp : t.rsp = s.rsp
  agenda : t.agenda = s.agenda
  received : t.received = s.received
  mem : t.mem = s.mem

/-- The action reaches the core by the port alone, without reading the host's memory. -/
def HostAction.isPort : HostAction → Bool
  | .command _ => true
  | .apply _ _ => false
  | .idle => true
  | .reset _ => true
  | .abandon _ => true

/-- An action at which reset clears LOADED (70_reset_and_hazards.md R82, R84). -/
def HostAction.isReset : HostAction → Bool
  | .command _ => false
  | .apply _ _ => false
  | .idle => false
  | .reset _ => true
  | .abandon _ => true

/-- The keystream byte that begins `m` steps after `st`: `{a(m+7), ..., a(m)}` (42_next_byte.md R60). -/
def keystreamByte (taps st : Word) (m : Nat) : Byte := BitVec.ofFnLE (fun i : Fin 8 => outputAt taps st (m + i))

/-- How many of the 16 bits of `v` are set (41_step.md R45). -/
def setBits (v : Word) : Nat := (List.range 16).countP (fun i => v.getLsbD i)

/-- The steps a command of a loaded core takes (43_stream_transform.md R65). -/
def stepsTaken : Instr → Nat
  | .init _ _ => 0
  | .step => 1
  | .nextb => 8
  | .xorb _ => 8

end Sys2Proof.Machine
end

