-- ==== Sys2Proof/Certificates/Slice0/Obligations.lean ====
section
/-! DEFINITION. The statements for the provers. Each docstring names the rule it formalises; a clause that is the model's own choice
says so and names the log entry. Where a statement speaks of `step` and runs, the host's command sequence is the model's `agenda` (log 3,
log 10), the responses it has had are `received` (log 8), and an edge without a response shows `rsp` = none (log 9). -/
open Sys2Proof Sys2Proof.Machine

/-! ### Command and response words -/

/-- 30_encoding.md R37: decoding by opcode, the canonical encoding `{op, …}`, `decode(encode(c)) = c` for every command, and
`encode(decode(w)) = w` exactly when `w` is canonical and not Illegal. -/
def Obligations.DecodeTotalAndRoundTrip : Prop :=
  (∀ w : CmdWord, decode w =
    match (w.extractLsb' 32 3).toNat with
    | 1 => .command (.init (w.extractLsb' 16 16) (w.extractLsb' 0 16))
    | 2 => .command .step
    | 3 => .command .nextb
    | 4 => .command (.xorb (w.extractLsb' 0 8))
    | _ => .illegal (w.extractLsb' 32 3)) ∧
  (∀ seed taps : Word, encode (.init seed taps) = 0b001#3 ++ seed ++ taps) ∧
  encode .step = 0b010#3 ++ 0#32 ∧
  encode .nextb = 0b011#3 ++ 0#32 ∧
  (∀ data : Byte, encode (.xorb data) = 0b100#3 ++ 0#24 ++ data) ∧
  (∀ i : Instr, decode (encode i) = .command i) ∧
  (∀ w : CmdWord, (∃ i, decode w = .command i ∧ encode i = w) ↔ canonical w = true) ∧
  ∃ w v : CmdWord, w ≠ v ∧ decode w = decode v

/-- 95_test_vectors.md section 2.2: words written out from the encoding, some with ignored bits set, decode as the table says. -/
def Obligations.WrittenOutWordsDecode : Prop :=
  decode 0x1ACE1B400#35 = .command (.init 0xACE1#16 0xB400#16) ∧
  decode 0x1FFFFFFFF#35 = .command (.init 0xFFFF#16 0xFFFF#16) ∧
  decode 0x200000000#35 = .command .step ∧ decode 0x2DEADBEEF#35 = .command .step ∧
  decode 0x300000000#35 = .command .nextb ∧ decode 0x3FFFFFFFF#35 = .command .nextb ∧
  decode 0x400000048#35 = .command (.xorb 0x48#8) ∧ decode 0x4ABCDEF48#35 = .command (.xorb 0x48#8) ∧
  decode 0x0ACE1B400#35 = .illegal 0b000#3 ∧ decode 0x500000000#35 = .illegal 0b101#3 ∧
  decode 0x600000000#35 = .illegal 0b110#3 ∧ decode 0x7FFFFFFFF#35 = .illegal 0b111#3

/-- 30_encoding.md R34: a word with any value in the bits its command ignores decodes to the same command and behaves identically;
INIT has no ignored bits. -/
def Obligations.IgnoredBitsNeverMatter : Prop :=
  ∀ w v : CmdWord, w.extractLsb' 32 3 = v.extractLsb' 32 3 →
    (w.extractLsb' 32 3 = 0b010#3 → decode w = .command .step ∧ ∀ s, accept w s = accept v s) ∧
    (w.extractLsb' 32 3 = 0b011#3 → decode w = .command .nextb ∧ ∀ s, accept w s = accept v s) ∧
    (w.extractLsb' 32 3 = 0b100#3 → w.extractLsb' 0 8 = v.extractLsb' 0 8 →
      decode w = .command (.xorb (v.extractLsb' 0 8)) ∧ ∀ s, accept w s = accept v s) ∧
    (w.extractLsb' 32 3 = 0b001#3 → (decode w = decode v ↔ w = v))

/-- 30_encoding.md R33, 60_exceptions.md R72: a reserved opcode performs nothing, whatever LOADED is; the response is 0x100. -/
def Obligations.ReservedOpcodesChangeNothing : Prop :=
  ∀ (w : CmdWord) (s : State), w.extractLsb' 32 3 ∈ [0b000#3, 0b101#3, 0b110#3, 0b111#3] →
    decode w = .illegal (w.extractLsb' 32 3) ∧
    accept w s = .next { s with rsp := some ⟨.illegalCommand, 0x00#8⟩ } ∧
    Response.word ⟨.illegalCommand, 0x00#8⟩ = 0x100#10

/-- 30_encoding.md R35, R36: every accepted command yields one response word, status in bits 9:8, data in bits 7:0; the status codes,
0b11 never produced, and when each is given: IllegalCommand for a reserved opcode, NotLoaded for STEP, NEXTB and XORB while
LOADED = 0, with nothing done in either case, OK otherwise; the data by command. -/
def Obligations.ResponseWord : Prop :=
  (Status.code .ok = 0b00#2 ∧ Status.code .illegalCommand = 0b01#2 ∧ Status.code .notLoaded = 0b10#2) ∧
  (∀ r : Response, r.word.extractLsb' 8 2 = r.st.code ∧ r.word.extractLsb' 0 8 = r.data ∧ r.word.extractLsb' 8 2 ≠ 0b11#2) ∧
  (∀ (w : CmdWord) (s : State), ∃ t r, accept w s = .next t ∧ t.rsp = some r ∧ (r.st ≠ .ok → r.data = 0x00#8)) ∧
  (∀ (w : CmdWord) (s : State), w.extractLsb' 32 3 ∈ [0b000#3, 0b101#3, 0b110#3, 0b111#3] →
    accept w s = .next { s with rsp := some ⟨.illegalCommand, 0x00#8⟩ }) ∧
  (∀ s : State, s.loaded = false →
    exec .step s = .next { s with rsp := some ⟨.notLoaded, 0x00#8⟩ } ∧
    exec .nextb s = .next { s with rsp := some ⟨.notLoaded, 0x00#8⟩ } ∧
    ∀ data, exec (.xorb data) s = .next { s with rsp := some ⟨.notLoaded, 0x00#8⟩ }) ∧
  (∀ (seed taps : Word) (s : State), ∃ t, exec (.init seed taps) s = .next t ∧ t.rsp = some ⟨.ok, 0x00#8⟩) ∧
  (∀ s : State, s.loaded = true →
    (∃ t, exec .step s = .next t ∧ t.rsp = some ⟨.ok, if s.state.getLsbD 0 then 0x01#8 else 0x00#8⟩) ∧
    (∃ t, exec .nextb s = .next t ∧ t.rsp = some ⟨.ok, keystreamByte s.taps s.state 0⟩) ∧
    ∀ data, ∃ t, exec (.xorb data) s = .next t ∧ t.rsp = some ⟨.ok, data ^^^ keystreamByte s.taps s.state 0⟩)

/-- 30_encoding.md R38: the example line of each mnemonic gives the word written beside it; a comment is dropped. That a line with a
comment only is empty, and that a line with no mnemonic of the table is rejected, are the model's choices (log 12). -/
def Obligations.TextLinesAssemble : Prop :=
  assembleLine ['I', 'N', 'I', 'T', ' ', '0', 'x', 'A', 'C', 'E', '1', ',', ' ', '0', 'x', 'B', '4', '0', '0']
    = some (.action (.command 0x1ACE1B400#35)) ∧
  assembleLine ['S', 'T', 'E', 'P'] = some (.action (.command 0x200000000#35)) ∧
  assembleLine ['N', 'E', 'X', 'T', 'B', ' ', ';', 'n'] = some (.action (.command 0x300000000#35)) ∧
  assembleLine ['X', 'O', 'R', 'B', ' ', '0', 'x', '4', '8'] = some (.action (.command 0x400000048#35)) ∧
  assembleLine ['X', 'O', 'R', 'B', ' ', '7', '2'] = some (.action (.command 0x400000048#35)) ∧
  assembleLine [';', ' ', 'S', 'T', 'E', 'P'] = some .empty ∧
  assembleLine ['H', 'A', 'L', 'T'] = none

/-! ### INIT -/

/-- 40_init.md R40: what INIT writes, in every state; everything else is left; the word and the example. -/
def Obligations.InitConstructsRegister : Prop :=
  (∀ (seed taps : Word) (s : State), exec (.init seed taps) s = .next { s with
    state := if seed ≠ 0x0000#16 then seed else 0x0001#16
    taps := taps
    loaded := true
    rsp := some ⟨.ok, 0x00#8⟩ }) ∧
  (∀ seed taps : Word, decode (0b001#3 ++ seed ++ taps) = .command (.init seed taps)) ∧
  decode 0x1ACE1B400#35 = .command (.init 0xACE1#16 0xB400#16)

/-- 40_init.md R41: seed 0 is coerced to 1, silently, and no other seed is altered. -/
def Obligations.ZeroSeedCoercion : Prop :=
  (∀ (taps : Word) (s : State), exec (.init 0x0000#16 taps) s = exec (.init 0x0001#16 taps) s) ∧
  (∀ (seed taps : Word) (s : State), ∃ t, exec (.init seed taps) s = .next t ∧ t.state ≠ 0x0000#16 ∧
    (seed ≠ 0x0000#16 → t.state = seed) ∧ (seed = 0x0000#16 → t.state = 0x0001#16) ∧ t.rsp = some ⟨.ok, 0x00#8⟩)

/-- 40_init.md R42: every mask is stored as given and accepted; what the all-zero mask and a mask without bit 0 lead to. -/
def Obligations.TapMaskStoredVerbatim : Prop :=
  (∀ (seed taps : Word) (s : State), ∃ t, exec (.init seed taps) s = .next t ∧ t.taps = taps ∧ t.rsp = some ⟨.ok, 0x00#8⟩) ∧
  (∀ st : Word, feedback 0x0000#16 st = false ∧ advance 0x0000#16 16 st = 0x0000#16) ∧
  (∀ taps : Word, taps.getLsbD 0 = false →
    (∃ st st' : Word, st ≠ st' ∧ nextState taps st = nextState taps st') ∧ nextState taps 0x0001#16 = 0x0000#16) ∧
  (∀ s : State, ∃ t, exec (.init 0x1234#16 0x0000#16) s = .next t ∧ t.state = 0x1234#16 ∧ t.taps = 0x0000#16 ∧
    t.rsp = some ⟨.ok, 0x00#8⟩)

/-- 40_init.md R43: INIT overwrites STATE and TAPS completely and nothing of the previous Register carries over, so the same operands
rewind the keystream; no other command writes TAPS. -/
def Obligations.ReInitOverwritesRegister : Prop :=
  (∀ (seed taps : Word) (s : State), ∃ t, exec (.init seed taps) s = .next t ∧ t.state = coerceSeed seed ∧ t.taps = taps ∧
    ∀ (st tp : Word) (l : Bool), exec (.init seed taps) { s with state := st, taps := tp, loaded := l } = .next t) ∧
  (∀ (i : Instr) (s : State), (∀ seed taps, i ≠ .init seed taps) → ∃ t, exec i s = .next t ∧ t.taps = s.taps)

/-- 40_init.md R44: INIT takes no step; the first output bit after it is bit 0 of the STATE it wrote. -/
def Obligations.InitTakesNoStep : Prop :=
  ∀ (seed taps : Word) (s : State), ∃ t u, exec (.init seed taps) s = .next t ∧ t.state = coerceSeed seed ∧
    exec .step t = .next u ∧ u.rsp = some ⟨.ok, if t.state.getLsbD 0 then 0x01#8 else 0x00#8⟩

/-! ### The step -/

/-- 41_step.md R45: parity16 is the XOR of the sixteen bits, 1 exactly for an odd number of set bits; the examples. -/
def Obligations.ParityCountsSetBits : Prop :=
  (∀ v : Word, parity16 v = ((List.range 16).map (fun i => v.getLsbD i)).foldl Bool.xor false) ∧
  (∀ v : Word, parity16 v = true ↔ setBits v % 2 = 1) ∧
  parity16 0x0000#16 = false ∧ parity16 0x0001#16 = true ∧ parity16 0x0003#16 = false ∧ parity16 0xA400#16 = true ∧
  parity16 0xB400#16 = false ∧ parity16 0xFFFF#16 = false ∧ parity16 0x7FFF#16 = true

/-- 41_step.md R46, R47 and R48: the step, bit by bit and as the source's formula; output and feedback come from the STATE before the
shift; bit 0 of the old STATE enters the new one only through the feedback; TAPS and all else are left; the feedback of a step is the
output of the step sixteen later; the example. -/
def Obligations.StepArithmetic : Prop :=
  (∀ s : State, (clock s).2 = s.state.getLsbD 0 ∧
    (clock s).1 = { s with
      state := (s.state >>> 1) ||| ((BitVec.ofBool (parity16 (s.state &&& s.taps))).setWidth 16 <<< 15) }) ∧
  (∀ s : State, (∀ i, i < 15 → (clock s).1.state.getLsbD i = s.state.getLsbD (i + 1)) ∧
    (clock s).1.state.getLsbD 15 = parity16 (s.state &&& s.taps)) ∧
  (∀ taps st : Word, taps.getLsbD 0 = false → nextState taps (st ^^^ 0x0001#16) = nextState taps st) ∧
  (∀ o : Bool, (BitVec.ofBool o).setWidth 16 <<< 15 = if o then 0x8000#16 else 0x0000#16) ∧
  (∀ st : Word, (st >>> 1).getLsbD 15 = false) ∧
  (∀ (taps st : Word) (t : Nat), outputAt taps st (t + 16) = feedback taps (advance taps t st)) ∧
  (outputBit 0xACE1#16 = true ∧ feedback 0xB400#16 0xACE1#16 = true ∧ parity16 0xA400#16 = true ∧
    nextState 0xB400#16 0xACE1#16 = 0xD670#16 ∧ outputBit 0xD670#16 = false)

/-- 41_step.md R49: STEP with LOADED = 1 and with LOADED = 0, its word, and the example. -/
def Obligations.StepCommand : Prop :=
  (∀ s : State, s.loaded = true → exec .step s = .next { s with
    state := nextState s.taps s.state
    rsp := some ⟨.ok, if s.state.getLsbD 0 then 0x01#8 else 0x00#8⟩ }) ∧
  (∀ s : State, s.loaded = false → exec .step s = .next { s with rsp := some ⟨.notLoaded, 0x00#8⟩ }) ∧
  decode (0b010#3 ++ 0#32) = .command .step ∧
  nextState 0xB400#16 0xACE1#16 = 0xD670#16 ∧ (0xACE1#16).getLsbD 0 = true ∧
  Response.word ⟨.ok, 0x01#8⟩ = 0x001#10 ∧ Response.word ⟨.notLoaded, 0x00#8⟩ = 0x200#10

/-- 41_step.md R50: the all-zero state is a fixed point with output 0 for every mask: STEP, NEXTB and XORB run there with status OK,
give 0, 0x00 and the data byte, and leave STATE 0x0000. -/
def Obligations.ZeroStateIsFixedPoint : Prop :=
  ∀ s : State, s.loaded = true → s.state = 0x0000#16 →
    (feedback s.taps s.state = false ∧ clock s = (s, false)) ∧
    exec .step s = .next { s with rsp := some ⟨.ok, 0x00#8⟩ } ∧
    exec .nextb s = .next { s with rsp := some ⟨.ok, 0x00#8⟩ } ∧
    ∀ data, exec (.xorb data) s = .next { s with rsp := some ⟨.ok, data⟩ }

/-- 41_step.md R51: a step yields 0x0000 exactly from 0x0000, or from 0x0001 with TAPS[0] = 0; what leads to 0x0001 under such a
mask; and the source's own mask collapses in one STEP from seed 1 or 0. -/
def Obligations.CollapseOnlyFromOne : Prop :=
  (∀ taps st : Word, nextState taps st = 0x0000#16 ↔
    (st = 0x0000#16 ∨ (st = 0x0001#16 ∧ taps.getLsbD 0 = false))) ∧
  (∀ taps st : Word, taps.getLsbD 0 = false →
    (nextState taps st = 0x0001#16 ↔ ((st = 0x0002#16 ∨ st = 0x0003#16) ∧ feedback taps st = false))) ∧
  (∀ (seed : Word) (s : State), seed = 0x0000#16 ∨ seed = 0x0001#16 → ∃ t u, exec (.init seed 0xB400#16) s = .next t ∧
    exec .step t = .next u ∧ u.rsp = some ⟨.ok, 0x01#8⟩ ∧ u.state = 0x0000#16)

/-- 41_step.md R52, first paragraph: for one mask the step is a bijection on the 65536 states exactly when TAPS[0] = 1; otherwise a
state and the state that differs from it in bit 0 have one successor and different outputs, and no third state has it. -/
def Obligations.StepBijectiveIffBitZeroTapped : Prop :=
  (∀ taps : Word, Function.Bijective (nextState taps) ↔ taps.getLsbD 0 = true) ∧
  (∀ taps st st' : Word, taps.getLsbD 0 = false →
    (nextState taps st = nextState taps st' ↔ (st' = st ∨ st' = st ^^^ 0x0001#16)) ∧
    outputBit (st ^^^ 0x0001#16) = !outputBit st)

/-- 41_step.md R52, second paragraph: with TAPS[0] = 1 every state lies on a cycle. -/
def Obligations.BitZeroTappedGivesCycles : Prop :=
  ∀ taps st : Word, taps.getLsbD 0 = true → ∃ p, 0 < p ∧ p ≤ 65536 ∧ advance taps p st = st

/-- 41_step.md R52, last paragraph: with TAPS = 0x0000 STATE is simply shifted out. -/
def Obligations.EmptyMaskShiftsOut : Prop :=
  (∀ (k : Nat) (st : Word), advance 0x0000#16 k st = st >>> k) ∧
  (∀ st : Word, advance 0x0000#16 16 st = 0x0000#16) ∧
  keystreamByte 0x0000#16 0x1234#16 0 = 0x34#8 ∧ keystreamByte 0x0000#16 0x1234#16 8 = 0x12#8 ∧
  ∀ m, 16 ≤ m → keystreamByte 0x0000#16 0x1234#16 m = 0x00#8

/-- 41_step.md R53: STATE holds the next sixteen outputs, and the outputs obey the recurrence the mask gives; for 0xB400 it has the
four terms the rule names. -/
def Obligations.OutputRecurrence : Prop :=
  (∀ (taps st : Word) (t i : Nat), i < 16 → (advance taps t st).getLsbD i = outputAt taps st (t + i)) ∧
  (∀ (taps st : Word) (t : Nat), outputAt taps st (t + 16) =
    ((List.range 16).map (fun i => taps.getLsbD i && outputAt taps st (t + i))).foldl Bool.xor false) ∧
  (∀ (st : Word) (t : Nat), outputAt 0xB400#16 st (t + 16) =
    Bool.xor (Bool.xor (Bool.xor (outputAt 0xB400#16 st (t + 15)) (outputAt 0xB400#16 st (t + 13)))
      (outputAt 0xB400#16 st (t + 12))) (outputAt 0xB400#16 st (t + 10)))

/-- 41_step.md R54: the first sixteen output bits are the bits of STATE, bit 0 first, whatever TAPS is; TAPS first counts at the
sixteenth; the example. -/
def Obligations.FirstSixteenOutputs : Prop :=
  (∀ (taps st : Word) (t : Nat), t < 16 → outputAt taps st t = st.getLsbD t) ∧
  (∀ taps st : Word, outputAt taps st 16 = parity16 (st &&& taps)) ∧
  (∀ taps : Word, (List.range 16).map (outputAt taps 0xACE1#16) =
    [true, false, false, false, false, true, true, true, false, false, true, true, false, true, false, true])

/-! ### NEXTB -/

/-- 42_next_byte.md R57: NextByte takes eight steps, one after another, and puts the i-th output bit at bit i; nothing else of the
state is touched. -/
def Obligations.NextByteAssembly : Prop :=
  ∀ s : State, (nextByte s).1 = { s with state := advance s.taps 8 s.state } ∧
    (∀ i, i < 8 → (nextByte s).2.getLsbD i = outputAt s.taps s.state i) ∧
    (nextByte s).2 = zextBit 8 (outputAt s.taps s.state 0) ||| (zextBit 8 (outputAt s.taps s.state 1) <<< 1)
      ||| (zextBit 8 (outputAt s.taps s.state 2) <<< 2) ||| (zextBit 8 (outputAt s.taps s.state 3) <<< 3)
      ||| (zextBit 8 (outputAt s.taps s.state 4) <<< 4) ||| (zextBit 8 (outputAt s.taps s.state 5) <<< 5)
      ||| (zextBit 8 (outputAt s.taps s.state 6) <<< 6) ||| (zextBit 8 (outputAt s.taps s.state 7) <<< 7)

/-- 42_next_byte.md R58: NEXTB with LOADED = 1 and with LOADED = 0, its word, its corner cases and the example. -/
def Obligations.NextbCommand : Prop :=
  (∀ s : State, s.loaded = true → exec .nextb s = .next { s with
    state := advance s.taps 8 s.state
    rsp := some ⟨.ok, keystreamByte s.taps s.state 0⟩ }) ∧
  (∀ s : State, s.loaded = false → exec .nextb s = .next { s with rsp := some ⟨.notLoaded, 0x00#8⟩ }) ∧
  decode (0b011#3 ++ 0#32) = .command .nextb ∧
  (∀ taps : Word, keystreamByte taps 0x0000#16 0 = 0x00#8 ∧ advance taps 8 0x0000#16 = 0x0000#16) ∧
  (keystreamByte 0xB400#16 0x0001#16 0 = 0x01#8 ∧ advance 0xB400#16 1 0x0001#16 = 0x0000#16) ∧
  (∀ st : Word, keystreamByte 0x0000#16 st 0 = st.extractLsb' 0 8 ∧ advance 0x0000#16 8 st = st >>> 8) ∧
  (keystreamByte 0xB400#16 0xACE1#16 0 = 0xE1#8 ∧ advance 0xB400#16 8 0xACE1#16 = 0x7BAC#16) ∧
  Response.word ⟨.ok, 0xE1#8⟩ = 0x0E1#10 ∧ Response.word ⟨.notLoaded, 0x00#8⟩ = 0x200#10

/-- 42_next_byte.md R60: byte boundaries are counted from the command: `m` steps on, NEXTB gives the bits `a(m)` to `a(m+7)` and
leaves the register `m + 8` steps on, whatever those `m` steps were; XORB uses the same bits, STEP the one bit `a(m)`; the example. -/
def Obligations.ByteBoundariesFollowCommands : Prop :=
  (∀ (s : State) (st : Word) (m : Nat), s.loaded = true → s.state = advance s.taps m st →
    ∃ t b, exec .nextb s = .next t ∧ t.rsp = some ⟨.ok, b⟩ ∧ t.state = advance s.taps (m + 8) st ∧
      (∀ i, i < 8 → b.getLsbD i = outputAt s.taps st (m + i)) ∧
      (∀ data, ∃ u, exec (.xorb data) s = .next u ∧ u.rsp = some ⟨.ok, data ^^^ b⟩ ∧ u.state = advance s.taps (m + 8) st) ∧
      ∃ v, exec .step s = .next v ∧ v.rsp = some ⟨.ok, if outputAt s.taps st m then 0x01#8 else 0x00#8⟩ ∧
        v.state = advance s.taps (m + 1) st) ∧
  (outputAt 0xB400#16 0xACE1#16 0 = true ∧ outputAt 0xB400#16 0xACE1#16 1 = false ∧ outputAt 0xB400#16 0xACE1#16 2 = false ∧
    advance 0xB400#16 3 0xACE1#16 = 0x759C#16 ∧ keystreamByte 0xB400#16 0xACE1#16 3 = 0x9C#8 ∧
    advance 0xB400#16 11 0xACE1#16 = 0xCF75#16 ∧ keystreamByte 0xB400#16 0xACE1#16 0 = 0xE1#8)

/-- 42_next_byte.md R61: the first two keystream bytes after an INIT are the low and the high byte of the STATE it wrote, whatever TAPS
is; the examples. -/
def Obligations.FirstTwoBytesAreTheSeed : Prop :=
  (∀ (seed taps : Word) (s : State), ∃ t u v, exec (.init seed taps) s = .next t ∧ exec .nextb t = .next u ∧
    exec .nextb u = .next v ∧ t.state = coerceSeed seed ∧ u.rsp = some ⟨.ok, t.state.extractLsb' 0 8⟩ ∧ v.rsp = some ⟨.ok, t.state.extractLsb' 8 8⟩) ∧
  keystreamByte 0xB400#16 0xACE1#16 16 = 0x7B#8 ∧ keystreamByte 0x002D#16 0xACE1#16 16 = 0x22#8

/-! ### XORB and APPLY -/

/-- 43_stream_transform.md R62: XORB with LOADED = 1 and with LOADED = 0, its word, its corner cases and the example; the new STATE does
not depend on the data byte. -/
def Obligations.XorbCommand : Prop :=
  (∀ (data : Byte) (s : State), s.loaded = true → exec (.xorb data) s = .next { s with
    state := advance s.taps 8 s.state
    rsp := some ⟨.ok, data ^^^ keystreamByte s.taps s.state 0⟩ }) ∧
  (∀ (data : Byte) (s : State), s.loaded = false →
    exec (.xorb data) s = .next { s with rsp := some ⟨.notLoaded, 0x00#8⟩ }) ∧
  (∀ data : Byte, decode (0b100#3 ++ 0#24 ++ data) = .command (.xorb data)) ∧
  (∀ s : State, exec (.xorb 0x00#8) s = exec .nextb s) ∧
  (∀ (data : Byte) (s : State), s.loaded = true → s.state = 0x0000#16 →
    ∃ t, exec (.xorb data) s = .next t ∧ t.rsp = some ⟨.ok, data⟩) ∧
  (∀ s : State, s.loaded = true → ∃ t, exec (.xorb 0xFF#8) s = .next t ∧ t.rsp = some ⟨.ok, ~~~ keystreamByte s.taps s.state 0⟩) ∧
  (decode 0x400000048#35 = .command (.xorb 0x48#8) ∧ 0x48#8 ^^^ keystreamByte 0xB400#16 0xACE1#16 0 = 0xA9#8 ∧
    Response.word ⟨.ok, 0xA9#8⟩ = 0x0A9#10 ∧ advance 0xB400#16 8 0xACE1#16 = 0x7BAC#16)

/-- 43_stream_transform.md R63: on equal states `XORB d` is `d ^ NEXTB`, and both leave the same register. -/
def Obligations.XorbIsNextbXorData : Prop :=
  ∀ (data : Byte) (s : State), s.loaded = true → ∃ t u k, exec .nextb s = .next t ∧ exec (.xorb data) s = .next u ∧
    t.rsp = some ⟨.ok, k⟩ ∧ u = { t with rsp := some ⟨.ok, data ^^^ k⟩ }

/-- 43_stream_transform.md R65: the steps each command takes on a loaded core; a faulting command takes none. APPLY's `8n` is in
ApplyTransformsBuffer. -/
def Obligations.StepsEachCommandTakes : Prop :=
  (∀ s : State, s.loaded = true →
    (∃ t, exec .step s = .next t ∧ t.state = advance s.taps 1 s.state) ∧
    (∃ t, exec .nextb s = .next t ∧ t.state = advance s.taps 8 s.state) ∧
    (∀ data, ∃ t, exec (.xorb data) s = .next t ∧ t.state = advance s.taps 8 s.state)) ∧
  (∀ (w : CmdWord) (s t : State) (r : Response), accept w s = .next t → t.rsp = some r → r.st ≠ .ok → t.state = s.state)

/-- 43_stream_transform.md R64, one pass of the loop: the byte at the base address is replaced by its XOR with the next keystream
byte, every other address reads as before, and the loop goes on at the next address. -/
def Obligations.ApplyOneByte : Prop :=
  ∀ (s : State) (rest : List HostAction) (base n : Nat) (p : Byte), s.agenda = .apply base (n + 1) :: rest →
    s.loaded = true → memRead s.mem base = some p →
    ∃ t, step s = .next t ∧ memRead t.mem base = some (p ^^^ keystreamByte s.taps s.state 0) ∧
      (∀ a, a ≠ base → memRead t.mem a = memRead s.mem a) ∧
      t.state = advance s.taps 8 s.state ∧ t.taps = s.taps ∧ t.loaded = true ∧
      t.received = s.received ++ [⟨.ok, p ^^^ keystreamByte s.taps s.state 0⟩] ∧ t.agenda = .apply (base + 1) n :: rest

/-- 43_stream_transform.md R64 and R65: APPLY over a whole buffer on a loaded core. It ends after `n` XORBs (and the loop's exit, log 6);
byte `i` is XORed with the keystream byte at `8i` steps; bytes outside the buffer are untouched; STATE is `8n` steps on. -/
def Obligations.ApplyTransformsBuffer : Prop :=
  ∀ (n : Nat) (s : State) (rest : List HostAction) (base : Nat), s.agenda = .apply base n :: rest → s.loaded = true →
    BufferPresent s.mem base n →
    ∃ t, runSteps (n + 1) s = .next t ∧
      (∀ i, i < n → memRead t.mem (base + i) =
        (memRead s.mem (base + i)).map (fun p => p ^^^ keystreamByte s.taps s.state (8 * i))) ∧
      (∀ a, (a < base ∨ base + n ≤ a) → memRead t.mem a = memRead s.mem a) ∧
      t.state = advance s.taps (8 * n) s.state ∧ t.taps = s.taps ∧ t.loaded = true ∧ t.agenda = rest ∧
      ∃ rs, t.received = s.received ++ rs ∧ rs.length = n ∧ ∀ r ∈ rs, r.st = .ok

/-- 43_stream_transform.md R64, Faults, and 60_exceptions.md R74: on a core without a Register the host writes nothing of the fault
response into its buffer. That it leaves the loop there is the model's reading of "should stop" (log 6). -/
def Obligations.ApplyStopsOnNotLoaded : Prop :=
  ∀ (s : State) (rest : List HostAction) (base n : Nat), s.agenda = .apply base (n + 1) :: rest → s.loaded = false →
    (memRead s.mem base).isSome = true →
    step s = .next { s with rsp := some ⟨.notLoaded, 0x00#8⟩, received := s.received ++ [⟨.notLoaded, 0x00#8⟩], agenda := rest }

/-- 30_encoding.md R39: `APPLY buf, n` stands for `n` XORB commands, the i-th carrying `buf[i]`: the core ends with the same registers and
has given the same responses as for those commands sent one by one. The expansion takes one transition a command; APPLY takes one more,
its loop's exit (log 6). On a core with LOADED = 0 APPLY stops at its first fault, which is ApplyStopsOnNotLoaded. -/
def Obligations.ApplyIsItsExpansion : Prop :=
  ∀ (bytes : List Byte) (s : State) (base : Nat), s.loaded = true →
    (∀ i, ∀ h : i < bytes.length, memRead s.mem (base + i) = some bytes[i]) →
    ∃ t u, runSteps (bytes.length + 1) { s with agenda := [.apply base bytes.length] } = .next t ∧
      runSteps bytes.length { s with agenda := expandApply bytes } = .next u ∧
      t.state = u.state ∧ t.taps = u.taps ∧ t.loaded = u.loaded ∧ t.received = u.received

/-- 43_stream_transform.md R66: `INIT S, T; APPLY; INIT S, T; APPLY` leaves the host's memory as it was, for every buffer, seed and
mask, the seed 0 against 1 included. Each APPLY takes `n + 1` transitions, the last being its loop's exit (log 6), and the host does not
edit its buffer by other means meanwhile (log 13). -/
def Obligations.RoundTripRestoresBuffer : Prop :=
  ∀ (s : State) (rest : List HostAction) (base n : Nat) (seed seed' taps : Word),
    s.agenda = .command (encode (.init seed taps)) :: .apply base n :: .command (encode (.init seed' taps)) :: .apply base n :: rest →
    coerceSeed seed = coerceSeed seed' → BufferPresent s.mem base n →
    ∃ t, runSteps (2 * n + 4) s = .next t ∧ t.agenda = rest ∧ ∀ a, memRead t.mem a = memRead s.mem a

/-- 43_stream_transform.md R67: after INIT 0, T and after INIT 1, T every run goes on alike. -/
def Obligations.ZeroSeedSameRuns : Prop :=
  ∀ (k : Nat) (s : State) (taps : Word) (rest : List HostAction),
    runSteps (k + 1) { s with agenda := .command (encode (.init 0x0000#16 taps)) :: rest } =
      runSteps (k + 1) { s with agenda := .command (encode (.init 0x0001#16 taps)) :: rest }

/-- 43_stream_transform.md R69: APPLY over an empty buffer issues no command, reads and writes no memory and takes no step, also when
LOADED = 0. -/
def Obligations.EmptyBufferDoesNothing : Prop :=
  ∀ (s : State) (rest : List HostAction) (base : Nat), s.agenda = .apply base 0 :: rest →
    step s = .next { s with agenda := rest, rsp := none }

/-- 43_stream_transform.md R70: two APPLYs without an INIT between them do what one APPLY over the concatenation does. The run with two
takes one transition more, the exit of its second loop (log 6), and the host does not edit its buffer by other means
meanwhile (log 13). -/
def Obligations.ApplyContinuesTheKeystream : Prop :=
  ∀ (s : State) (base m n : Nat), s.loaded = true → BufferPresent s.mem base (m + n) →
    ∃ t u, runSteps (m + n + 2) { s with agenda := [.apply base m, .apply (base + m) n] } = .next t ∧
      runSteps (m + n + 1) { s with agenda := [.apply base (m + n)] } = .next u ∧
      t.state = u.state ∧ t.taps = u.taps ∧ t.received = u.received ∧ ∀ a, memRead t.mem a = memRead u.mem a

/-- 43_stream_transform.md R71, "What the rules give exactly": a flipped seed bit `j` changes output bit `a(j)`; a flipped tap bit cannot
change the first two keystream bytes. -/
def Obligations.SeedAndTapSensitivity : Prop :=
  (∀ (taps st : Word) (j : Nat), j < 16 → outputAt taps (st ^^^ (0x0001#16 <<< j)) j = !outputAt taps st j) ∧
  (∀ (taps taps' st : Word), keystreamByte taps st 0 = keystreamByte taps' st 0 ∧
    keystreamByte taps st 8 = keystreamByte taps' st 8)

/-! ### Faults -/

/-- 60_exceptions.md R73: STEP, NEXTB and XORB without a Register perform nothing; INIT never raises NotLoaded; on a loaded core nothing
does, and every command leaves it loaded. -/
def Obligations.NotLoadedFault : Prop :=
  (∀ (i : Instr) (s : State), s.loaded = false → (∀ seed taps, i ≠ .init seed taps) →
    exec i s = .next { s with rsp := some ⟨.notLoaded, 0x00#8⟩ }) ∧
  Response.word ⟨.notLoaded, 0x00#8⟩ = 0x200#10 ∧
  (∀ (w : CmdWord) (s t : State) (r : Response), accept w s = .next t → t.rsp = some r → r.st = .notLoaded →
    s.loaded = false ∧ ∀ seed taps, decode w ≠ .command (.init seed taps)) ∧
  (∀ (w : CmdWord) (s : State), s.loaded = true → ∃ t r, accept w s = .next t ∧ t.loaded = true ∧ t.rsp = some r ∧ r.st ≠ .notLoaded)

/-- 60_exceptions.md R74: `raise` writes nothing but the response `{code, 0x00}`, and the core is then ready for the next command: every
word has the outcome it has without the fault. The host stores nothing of a fault response in its memory. Whichever fault a
command ends in, a `raise` is all it did. -/
def Obligations.FaultsArePrecise : Prop :=
  (∀ (f : CoreFault) (s : State), raise f s = { s with rsp := some ⟨f.status, 0x00#8⟩ } ∧ (∀ w, accept w (raise f s) = accept w s) ∧
    ∀ base n, (storeResult base n (raise f s)).mem = s.mem) ∧
  (Response.word ⟨CoreFault.illegalCommand.status, 0x00#8⟩ = 0x100#10 ∧ Response.word ⟨CoreFault.notLoaded.status, 0x00#8⟩ = 0x200#10) ∧
  (∀ (w : CmdWord) (s t : State) (r : Response), accept w s = .next t → t.rsp = some r → r.st ≠ .ok →
    t = { s with rsp := some ⟨r.st, 0x00#8⟩ } ∧ ∃ f : CoreFault, t = raise f s)

/-- 60_exceptions.md R76: a reserved opcode raises IllegalCommand and never NotLoaded; of the valid opcodes only NotLoaded can come; a reset
on the edge of a command wins, so that the command has no response and no effect. -/
def Obligations.FaultPriority : Prop :=
  (∀ (w : CmdWord) (op : Opcode) (s : State), decode w = .illegal op →
    ∃ t, accept w s = .next t ∧ t.rsp = some ⟨.illegalCommand, 0x00#8⟩) ∧
  (∀ (w : CmdWord) (i : Instr) (s : State), decode w = .command i →
    ∃ t r, accept w s = .next t ∧ t.rsp = some r ∧ r.st ≠ .illegalCommand) ∧
  (∀ (s : State) (w : CmdWord) (rest : List HostAction),
    step { s with agenda := .reset (some w) :: rest } = step { s with agenda := .reset none :: rest } ∧
    ∃ t, step { s with agenda := .reset (some w) :: rest } = .next t ∧ t.loaded = false ∧ t.rsp = none ∧ t.received = s.received)

/-- 60_exceptions.md R78: faults are not sticky: after a fault the next command runs as if the faulting one had not been issued. -/
def Obligations.FaultsAreNotSticky : Prop :=
  ∀ (w v : CmdWord) (s t : State) (r : Response) (rest : List HostAction), accept w s = .next t → t.rsp = some r → r.st ≠ .ok →
    ∃ t₁ t₂, runSteps 2 { s with agenda := .command w :: .command v :: rest } = .next t₁ ∧
      runSteps 1 { s with agenda := .command v :: rest } = .next t₂ ∧
      t₁ = { t₂ with received := t₁.received } ∧ ∃ q, t₁.received = s.received ++ [r, q] ∧ t₂.received = s.received ++ [q]

/-- 60_exceptions.md R75: INIT always, and every command of a loaded core, ends with status OK, for every operand and every state. -/
def Obligations.LoadedCommandsSucceed : Prop :=
  (∀ (seed taps : Word) (s : State), ∃ t d, exec (.init seed taps) s = .next t ∧ t.rsp = some ⟨.ok, d⟩) ∧
  (∀ (i : Instr) (s : State), s.loaded = true → ∃ t d, exec i s = .next t ∧ t.rsp = some ⟨.ok, d⟩)

/-! ### Reset and the whole machine -/

/-- 10_state.md R18, 70_reset_and_hazards.md R83: LOADED = 0, `rsp_valid` = 0 and `cmd_ready` = 1 after reset; STEP there is NotLoaded. -/
def Obligations.ResetState : Prop :=
  State.reset.loaded = false ∧ State.reset.rspValid = false ∧ State.reset.cmdReady = true ∧
  ∃ t, exec .step State.reset = .next t ∧ t.rsp = some ⟨.notLoaded, 0x00#8⟩

/-- 70_reset_and_hazards.md R82: reset clears LOADED in every state, gives no response, and leaves the core ready. What it leaves in STATE
and TAPS is unspecified and not stated here (log 11). -/
def Obligations.ResetClearsLoaded : Prop :=
  ∀ (s : State) (offered : Option CmdWord) (rest : List HostAction), s.agenda = .reset offered :: rest →
    ∃ t, step s = .next t ∧ t.loaded = false ∧ t.rsp = none ∧ t.rspValid = false ∧ t.cmdReady = true ∧ t.agenda = rest ∧
      t.received = s.received ∧ t.mem = s.mem

/-- 70_reset_and_hazards.md R84: a command abandoned by reset leaves exactly what a reset before it leaves, and has no response. -/
def Obligations.AbandonedCommandIsReset : Prop :=
  ∀ (s : State) (w : CmdWord) (rest : List HostAction),
    step { s with agenda := .abandon w :: rest } = step { s with agenda := .reset none :: rest } ∧
    ∃ t, step { s with agenda := .abandon w :: rest } = .next t ∧ t.loaded = false ∧ t.rsp = none ∧ t.received = s.received

/-- 10_state.md R12: reset clears LOADED, INIT sets it, nothing else changes it; while it is 0, STEP, NEXTB and XORB raise NotLoaded and
neither write nor read the Register (their effect is the same whatever it holds). -/
def Obligations.LoadedChangesOnlyByInitAndReset : Prop :=
  (∀ s t : State, step s = .next t → t.loaded ≠ s.loaded →
    (∃ a rest, s.agenda = a :: rest ∧ a.isReset = true ∧ t.loaded = false) ∨
    (∃ w rest seed taps, s.agenda = .command w :: rest ∧ decode w = .command (.init seed taps) ∧ t.loaded = true)) ∧
  (∀ (i : Instr) (s : State), s.loaded = false → (∀ seed taps, i ≠ .init seed taps) →
    ∃ t, exec i s = .next t ∧ t.rsp = some ⟨.notLoaded, 0x00#8⟩ ∧ t.state = s.state ∧ t.taps = s.taps ∧
      ∀ st tp, exec i { s with state := st, taps := tp } = .next { t with state := st, taps := tp })

/-- 10_state.md R11: within a Register's lifetime nothing writes TAPS: a step changes TAPS only at an INIT or a reset; INIT stores any
mask. -/
def Obligations.TapsWrittenByInitOnly : Prop :=
  (∀ s t : State, step s = .next t → t.taps ≠ s.taps →
    (∃ a rest, s.agenda = a :: rest ∧ a.isReset = true) ∨
    (∃ w rest seed, s.agenda = .command w :: rest ∧ decode w = .command (.init seed t.taps))) ∧
  (∀ (seed taps : Word) (s : State), ∃ t, exec (.init seed taps) s = .next t ∧ t.taps = taps)

/-- 10_state.md R18, 70_reset_and_hazards.md R83: "no behaviour can depend on" what STATE and TAPS hold while LOADED = 0: two machines that
differ only there run alike for ever, and differ nowhere once an INIT has run. -/
def Obligations.HiddenRegisterIsUnobservable : Prop :=
  ∀ (k : Nat) (s s' : State), SameButHidden s s' →
    (∀ t, runSteps k s = .next t → ∃ t', runSteps k s' = .next t' ∧ SameButHidden t t') ∧
    (∀ f, runSteps k s = .fault f → runSteps k s' = .fault f)

/-- 41_step.md R55: the whole response sequence is a function of the commands and of the Register they start from: two machines with
the same Register and the same port actions give the same responses, whatever the host remembers or holds in memory. -/
def Obligations.ResponsesDependOnCommandsOnly : Prop :=
  ∀ (k : Nat) (s s' : State), s'.state = s.state → s'.taps = s.taps → s'.loaded = s.loaded → s'.agenda = s.agenda →
    (∀ a ∈ s.agenda, a.isPort = true) →
    ∃ t t' rs, runSteps k s = .next t ∧ runSteps k s' = .next t' ∧ t'.state = t.state ∧ t'.taps = t.taps ∧
      t'.loaded = t.loaded ∧ t.received = s.received ++ rs ∧ t'.received = s'.received ++ rs

/-- 10_state.md R13, 41_step.md R51 and R52: with TAPS[0] = 1 a loaded register is never 0x0000, and every transition keeps it so. -/
def Obligations.NonZeroInvariantKept : Prop := ∀ s t : State, NonZeroInv s → step s = .next t → NonZeroInv t

/-- 10_state.md R13 item 1 and R18: the non-zero invariant holds at reset and right after any INIT. -/
def Obligations.NonZeroInvariantStarts : Prop :=
  NonZeroInv State.reset ∧
  ∀ (seed taps : Word) (s : State), ∃ t, exec (.init seed taps) s = .next t ∧ t.state ≠ 0x0000#16 ∧ NonZeroInv t

/-- The host's memory keeps its canonical form (the model's own, log 5) through every transition. -/
def Obligations.MemoryFormKept : Prop := ∀ s t : State, s.mem.wf → step s = .next t → t.mem.wf

/-- At reset the host's memory has its canonical form (log 5), and no response is on the port or taken. -/
def Obligations.FormsHoldAtReset : Prop := State.reset.mem.wf ∧ ResponsesSound State.reset

/-- 60_exceptions.md R74: no response that reports a fault ever carries data other than 0x00, on the port or in what the host has taken. -/
def Obligations.ResponsesStaySound : Prop := ∀ s t : State, ResponsesSound s → step s = .next t → ResponsesSound t

/-- 70_reset_and_hazards.md R91, 00_scope.md R9: the machine never stops while the host's APPLYs stay inside its memory, and they go on
doing so. -/
def Obligations.InBoundsRunNeverStops : Prop :=
  ∀ (k : Nat) (s : State), AgendaInBounds s → ∃ t, runSteps k s = .next t ∧ AgendaInBounds t

/-- The model's only stop (log 5): APPLY reads an address where the host's memory has no byte. -/
def Obligations.OnlyAbsentBufferByteStops : Prop :=
  ∀ s : State, (∀ r, step s ≠ .refused r) ∧
    ∀ f, step s = .fault f ↔
      ∃ base n rest, s.agenda = .apply base (n + 1) :: rest ∧ memRead s.mem base = none ∧ f = .bufferByteAbsent base

/-- 10_state.md R17, 20_memory.md R26: a command word at the head of the agenda is taken off it, decoded and run by `exec`, and the host
takes its one response, after all earlier ones; a word that decodes to Illegal only gives its response, which the host takes
(60_exceptions.md R72); an edge without a command gives no response and changes no register. -/
def Obligations.StepRunsDecodedCommand : Prop :=
  (∀ (s : State) (w : CmdWord) (i : Instr) (rest : List HostAction), s.agenda = .command w :: rest → decode w = .command i →
    ∃ t r, exec i { s with agenda := rest } = .next t ∧ t.rsp = some r ∧
      step s = .next { t with received := s.received ++ [r] }) ∧
  (∀ (s : State) (w : CmdWord) (op : Opcode) (rest : List HostAction), s.agenda = .command w :: rest → decode w = .illegal op →
    step s = .next { s with
      agenda := rest
      rsp := some ⟨.illegalCommand, 0x00#8⟩
      received := s.received ++ [⟨.illegalCommand, 0x00#8⟩] }) ∧
  (∀ (s : State) (rest : List HostAction),
    step { s with agenda := .idle :: rest } = .next { s with agenda := rest, rsp := none } ∧
    step { s with agenda := [] } = .next { s with agenda := [], rsp := none })

/-- 20_memory.md R20, R26: no command touches the host's memory or agenda, and each gives one response. The frame of the four commands
outside the core; inside it STATE, TAPS and LOADED are in the statements of each. -/
def Obligations.CommandsLeaveHostAlone : Prop :=
  ∀ (i : Instr) (s : State), ∃ t r, exec i s = .next t ∧ t.rsp = some r ∧ t.agenda = s.agenda ∧ t.received = s.received ∧
    ∀ a, memRead t.mem a = memRead s.mem a

/-- The host's own check (log 4, log 7): a table word that decodes, offered next, is run next. -/
def Obligations.FetchWordRunsNext : Prop :=
  ∀ (s : State) (nbits w : Nat) (i : Instr), decodeTableWord nbits w = some i →
    step (s.withFetchWord nbits w) = onNext (exec i s) (fun t => .next (hostTakes t))
end

