-- ==== Sys2Proof/Laws/Memory.lean ====
section
/-! SUPPORT. The laws of the host's byte memory: what a write changes, what it leaves, and that the canonical form is kept. -/
namespace Sys2Proof.Machine

@[simp] theorem memRead_memWrite_same (m : Memory) (a : Nat) (v : Byte) : memRead (memWrite m a v) a = some v := by
  induction m with
  | nil => simp [memWrite, memRead]
  | cons c m ih =>
    obtain ⟨b, w⟩ := c
    simp only [memWrite]
    split
    · simp [memRead]
    · split
      · simp [memRead]
      · next h => simp [memRead, h, ih]

theorem memRead_memWrite_other (m : Memory) (a b : Nat) (v : Byte) (h : b ≠ a) :
    memRead (memWrite m a v) b = memRead m b := by
  induction m with
  | nil => simp [memWrite, memRead, Ne.symm h]
  | cons c m ih =>
    obtain ⟨x, w⟩ := c
    simp only [memWrite]
    split
    · simp [memRead, Ne.symm h]
    · split
      · next hx => subst hx; simp [memRead, Ne.symm h]
      · simp only [memRead, ih]

/-- Writing changes no address from present to absent. -/
theorem memRead_memWrite_isSome (m : Memory) (a b : Nat) (v : Byte) (h : (memRead m b).isSome = true) :
    (memRead (memWrite m a v) b).isSome = true := by
  by_cases hb : b = a
  · subst hb; simp
  · rw [memRead_memWrite_other m a b v hb]; exact h

theorem memWrite_keys (m : Memory) (a : Nat) (v : Byte) : ∀ c ∈ memWrite m a v, c.1 = a ∨ ∃ d ∈ m, d.1 = c.1 := by
  induction m with
  | nil => simp [memWrite]
  | cons c m ih =>
    obtain ⟨b, w⟩ := c
    simp only [memWrite]
    split
    · intro c hc
      rcases List.mem_cons.1 hc with rfl | hc
      · exact .inl rfl
      · exact .inr ⟨c, hc, rfl⟩
    · split
      · intro c hc
        rcases List.mem_cons.1 hc with rfl | hc
        · exact .inl rfl
        · exact .inr ⟨c, List.mem_cons_of_mem _ hc, rfl⟩
      · intro c hc
        rcases List.mem_cons.1 hc with rfl | hc
        · exact .inr ⟨(b, w), List.mem_cons_self, rfl⟩
        · rcases ih c hc with h | ⟨d, hd, h⟩
          · exact .inl h
          · exact .inr ⟨d, List.mem_cons_of_mem _ hd, h⟩

theorem memWrite_wf (m : Memory) (a : Nat) (v : Byte) (h : m.wf) : (memWrite m a v).wf := by
  induction m with
  | nil => simp [memWrite, Memory.wf]
  | cons c m ih =>
    obtain ⟨b, w⟩ := c
    have hm := List.pairwise_cons.1 h
    simp only [memWrite]
    split
    · next hab =>
      refine List.pairwise_cons.2 ⟨fun d hd => ?_, h⟩
      rcases List.mem_cons.1 hd with rfl | hd
      · exact hab
      · exact Nat.lt_trans hab (hm.1 d hd)
    · next hab =>
      split
      · next hb => subst hb; exact List.pairwise_cons.2 ⟨hm.1, hm.2⟩
      · next hb =>
        refine List.pairwise_cons.2 ⟨fun d hd => ?_, ih hm.2⟩
        rcases memWrite_keys m a v d hd with h' | ⟨e, he, h'⟩
        · show b < d.1
          omega
        · exact h' ▸ hm.1 e he

theorem memPlace_wf (m : Memory) (base : Nat) (bytes : List Byte) (h : m.wf) : (memPlace m base bytes).wf := by
  induction bytes generalizing m base with
  | nil => exact h
  | cons v vs ih => exact ih _ _ (memWrite_wf m base v h)

theorem memRead_eq_none_of_lt (m : Memory) (a : Nat) (h : ∀ c ∈ m, a < c.1) : memRead m a = none := by
  induction m with
  | nil => rfl
  | cons c m ih =>
    have hc := h c List.mem_cons_self
    have hne : c.1 ≠ a := by omega
    simp only [memRead, if_neg hne]
    exact ih fun d hd => h d (List.mem_cons_of_mem _ hd)

/-- A canonical memory is determined by what its addresses read as. -/
theorem memory_ext (m n : Memory) (hm : m.wf) (hn : n.wf) (h : ∀ a, memRead m a = memRead n a) : m = n := by
  induction m generalizing n with
  | nil =>
    cases n with
    | nil => rfl
    | cons d n => have := h d.1; simp [memRead] at this
  | cons c m ih =>
    cases n with
    | nil => have := h c.1; simp [memRead] at this
    | cons d n =>
      have hm' := List.pairwise_cons.1 hm
      have hn' := List.pairwise_cons.1 hn
      have key : c.1 = d.1 := by
        rcases Nat.lt_trichotomy c.1 d.1 with hlt | heq | hgt
        · have h1 := h c.1
          rw [memRead_eq_none_of_lt (d :: n) c.1 (by
            intro e he
            rcases List.mem_cons.1 he with rfl | he
            · exact hlt
            · exact Nat.lt_trans hlt (hn'.1 e he))] at h1
          simp [memRead] at h1
        · exact heq
        · have h1 := h d.1
          rw [memRead_eq_none_of_lt (c :: m) d.1 (by
            intro e he
            rcases List.mem_cons.1 he with rfl | he
            · exact hgt
            · exact Nat.lt_trans hgt (hm'.1 e he))] at h1
          simp [memRead] at h1
      have hv : c.2 = d.2 := by have h1 := h c.1; simp only [memRead, if_pos key.symm] at h1; exact Option.some.inj h1
      have hcd : c = d := Prod.ext key hv
      subst hcd
      congr 1
      refine ih n hm'.2 hn'.2 fun a => ?_
      by_cases ha : c.1 = a
      · subst ha
        rw [memRead_eq_none_of_lt m c.1 hm'.1, memRead_eq_none_of_lt n c.1 hn'.1]
      · have h1 := h a
        simp only [memRead, if_neg ha] at h1
        exact h1

end Sys2Proof.Machine
end

