-- ==== Sys2Proof/Laws/State.lean ====
section
/-! SUPPORT. One lemma per field for each update of State, so that no proof unfolds a record update. -/
namespace Sys2Proof.Machine
variable (s : State) (st : Status) (d : Byte) (f : CoreFault)

@[simp] theorem setLoaded_state : (setLoaded s).state = s.state := rfl
@[simp] theorem setLoaded_taps : (setLoaded s).taps = s.taps := rfl
@[simp] theorem setLoaded_loaded : (setLoaded s).loaded = true := rfl
@[simp] theorem setLoaded_rsp : (setLoaded s).rsp = s.rsp := rfl
@[simp] theorem setLoaded_agenda : (setLoaded s).agenda = s.agenda := rfl
@[simp] theorem setLoaded_received : (setLoaded s).received = s.received := rfl
@[simp] theorem setLoaded_mem : (setLoaded s).mem = s.mem := rfl

@[simp] theorem clearLoaded_state : (clearLoaded s).state = s.state := rfl
@[simp] theorem clearLoaded_taps : (clearLoaded s).taps = s.taps := rfl
@[simp] theorem clearLoaded_rsp : (clearLoaded s).rsp = s.rsp := rfl
@[simp] theorem clearLoaded_agenda : (clearLoaded s).agenda = s.agenda := rfl
@[simp] theorem clearLoaded_received : (clearLoaded s).received = s.received := rfl
@[simp] theorem clearLoaded_mem : (clearLoaded s).mem = s.mem := rfl
@[simp] theorem clearLoaded_loaded : (clearLoaded s).loaded = false := rfl

@[simp] theorem clock_state : (clock s).1.state = nextState s.taps s.state := rfl
@[simp] theorem clock_taps : (clock s).1.taps = s.taps := rfl
@[simp] theorem clock_loaded : (clock s).1.loaded = s.loaded := rfl
@[simp] theorem clock_rsp : (clock s).1.rsp = s.rsp := rfl
@[simp] theorem clock_agenda : (clock s).1.agenda = s.agenda := rfl
@[simp] theorem clock_received : (clock s).1.received = s.received := rfl
@[simp] theorem clock_mem : (clock s).1.mem = s.mem := rfl
@[simp] theorem clock_output : (clock s).2 = outputBit s.state := rfl

@[simp] theorem respond_state : (respond st d s).state = s.state := rfl
@[simp] theorem respond_taps : (respond st d s).taps = s.taps := rfl
@[simp] theorem respond_loaded : (respond st d s).loaded = s.loaded := rfl
@[simp] theorem respond_rsp : (respond st d s).rsp = some ⟨st, d⟩ := rfl
@[simp] theorem respond_agenda : (respond st d s).agenda = s.agenda := rfl
@[simp] theorem respond_received : (respond st d s).received = s.received := rfl
@[simp] theorem respond_mem : (respond st d s).mem = s.mem := rfl

@[simp] theorem raise_state : (raise f s).state = s.state := rfl
@[simp] theorem raise_taps : (raise f s).taps = s.taps := rfl
@[simp] theorem raise_loaded : (raise f s).loaded = s.loaded := rfl
@[simp] theorem raise_rsp : (raise f s).rsp = some ⟨f.status, 0x00#8⟩ := rfl
@[simp] theorem raise_agenda : (raise f s).agenda = s.agenda := rfl
@[simp] theorem raise_received : (raise f s).received = s.received := rfl
@[simp] theorem raise_mem : (raise f s).mem = s.mem := rfl

@[simp] theorem quiet_state : (quiet s).state = s.state := rfl
@[simp] theorem quiet_taps : (quiet s).taps = s.taps := rfl
@[simp] theorem quiet_loaded : (quiet s).loaded = s.loaded := rfl
@[simp] theorem quiet_rsp : (quiet s).rsp = none := rfl
@[simp] theorem quiet_agenda : (quiet s).agenda = s.agenda := rfl
@[simp] theorem quiet_received : (quiet s).received = s.received := rfl
@[simp] theorem quiet_mem : (quiet s).mem = s.mem := rfl

@[simp] theorem resetCore_state : (resetCore s).state = Config.resetState := rfl
@[simp] theorem resetCore_taps : (resetCore s).taps = Config.resetTaps := rfl
@[simp] theorem resetCore_loaded : (resetCore s).loaded = false := rfl
@[simp] theorem resetCore_rsp : (resetCore s).rsp = none := rfl
@[simp] theorem resetCore_agenda : (resetCore s).agenda = s.agenda := rfl
@[simp] theorem resetCore_received : (resetCore s).received = s.received := rfl
@[simp] theorem resetCore_mem : (resetCore s).mem = s.mem := rfl

@[simp] theorem hostTakes_state : (hostTakes s).state = s.state := by unfold hostTakes; split <;> rfl
@[simp] theorem hostTakes_taps : (hostTakes s).taps = s.taps := by unfold hostTakes; split <;> rfl
@[simp] theorem hostTakes_loaded : (hostTakes s).loaded = s.loaded := by unfold hostTakes; split <;> rfl
@[simp] theorem hostTakes_rsp : (hostTakes s).rsp = s.rsp := by unfold hostTakes; split <;> rfl
@[simp] theorem hostTakes_agenda : (hostTakes s).agenda = s.agenda := by unfold hostTakes; split <;> rfl
@[simp] theorem hostTakes_received : (hostTakes s).received = s.received ++ s.rsp.toList := by
  unfold hostTakes; split <;> simp_all
@[simp] theorem hostTakes_mem : (hostTakes s).mem = s.mem := by unfold hostTakes; split <;> rfl

/-- Two states with equal fields are equal. -/
theorem State.ext_fields {s t : State} (h₁ : s.state = t.state) (h₂ : s.taps = t.taps) (h₃ : s.loaded = t.loaded)
    (h₄ : s.rsp = t.rsp) (h₅ : s.agenda = t.agenda) (h₆ : s.received = t.received) (h₇ : s.mem = t.mem) : s = t := by
  cases s; cases t; simp_all

end Sys2Proof.Machine
end

