-- ==== Sys2Proof/Laws/Register.lean ====
section
/-! SUPPORT. The laws of the step and of the serializer, over all states and masks. -/
namespace Sys2Proof.Machine

@[simp] theorem zextBit_getLsbD (n : Nat) (o : Bool) (i : Nat) : (zextBit n o).getLsbD i = (decide (i = 0 ∧ 0 < n) && o) := by
  unfold zextBit
  cases i <;> cases n <;> simp [BitVec.getLsbD_setWidth]

/-- Every bit of the new STATE (41_step.md R46, "Bit by bit"). -/
theorem nextState_getLsbD (taps st : Word) (i : Nat) :
    (nextState taps st).getLsbD i = if i = 15 then feedback taps st else st.getLsbD (i + 1) := by
  unfold nextState
  rw [BitVec.getLsbD_or, BitVec.getLsbD_ushiftRight, BitVec.getLsbD_shiftLeft, zextBit_getLsbD]
  by_cases h : i = 15
  · subst h; simp
  · rw [if_neg h, Nat.add_comm 1 i]
    by_cases h2 : i < 16
    · have : i < 15 := by omega
      simp [this]
    · simp [h2]

theorem advance_add (taps : Word) (m n : Nat) (st : Word) :
    advance taps (m + n) st = advance taps n (advance taps m st) := by
  induction m generalizing st with
  | zero => simp [advance]
  | succ m ih => rw [Nat.add_right_comm]; exact ih (nextState taps st)

theorem advance_succ (taps : Word) (n : Nat) (st : Word) :
    advance taps (n + 1) st = nextState taps (advance taps n st) := by
  rw [advance_add]; rfl

theorem outputAt_advance (taps st : Word) (m t : Nat) :
    outputAt taps (advance taps m st) t = outputAt taps st (m + t) := by
  simp only [outputAt, advance_add]

/-- A bit of STATE that has not yet been fed back into only moves toward bit 0 (41_step.md R53). -/
theorem advance_getLsbD (taps st : Word) (t i : Nat) (h : t + i < 16) :
    (advance taps t st).getLsbD i = st.getLsbD (t + i) := by
  induction t generalizing i with
  | zero => simp [advance]
  | succ t ih =>
    rw [advance_succ, nextState_getLsbD, if_neg (by omega), ih (i + 1) (by omega)]
    congr 1; omega

theorem advance_zero_state (taps : Word) (n : Nat) : advance taps n 0x0000#16 = 0x0000#16 := by
  induction n with
  | zero => rfl
  | succ n ih =>
    have h : nextState taps 0x0000#16 = 0x0000#16 := by simp [nextState, feedback, parity16, zextBit]
    rw [advance_succ, ih, h]

/-- A pass of the serializer's loop moves STATE by the steps it takes and changes nothing else. -/
theorem clockBits_fst (n i : Nat) (k : Byte) (s : State) :
    (clockBits n i k s).1 = { s with state := advance s.taps n s.state } := by
  induction n generalizing i k s with
  | zero => rfl
  | succ n ih => exact ih (i + 1) _ (clock s).1

theorem placeBit_getLsbD (k : Byte) (i j : Nat) (o : Bool) :
    (placeBit k i o).getLsbD j = (k.getLsbD j || (decide (j < 8 ∧ j = i) && o)) := by
  unfold placeBit
  rw [BitVec.getLsbD_or, BitVec.getLsbD_shiftLeft, zextBit_getLsbD]
  by_cases h : j < 8 <;> by_cases h2 : j = i <;> (simp [h, h2]; try omega)

/-- Bit `j` of the byte a pass of the serializer's loop gives: what was there, or the output of the step it belongs to. -/
theorem clockBits_getLsbD (n i : Nat) (k : Byte) (s : State) (j : Nat) (h : j < 8) :
    (clockBits n i k s).2.getLsbD j
      = (k.getLsbD j || (decide (i ≤ j ∧ j < i + n) && outputAt s.taps s.state (j - i))) := by
  induction n generalizing i k s with
  | zero =>
    have : ¬ (i ≤ j ∧ j < i + 0) := by omega
    rw [decide_eq_false this]; simp [clockBits]
  | succ n ih =>
    rw [clockBits, ih (i + 1), placeBit_getLsbD, Bool.or_assoc]
    congr 1
    rcases Nat.lt_trichotomy j i with hlt | heq | hgt
    · rw [decide_eq_false (show ¬ (i + 1 ≤ j ∧ j < i + 1 + n) by omega),
        decide_eq_false (show ¬ (i ≤ j ∧ j < i + (n + 1)) by omega),
        decide_eq_false (show ¬ (j < 8 ∧ j = i) by omega)]
      rfl
    · subst heq
      simp [h, outputAt, advance]
    · obtain ⟨d, rfl⟩ : ∃ d, j = i + 1 + d := ⟨j - (i + 1), by omega⟩
      rw [decide_eq_false (show ¬ (i + 1 + d < 8 ∧ i + 1 + d = i) by omega),
        show i + 1 + d - (i + 1) = d by omega, show i + 1 + d - i = d + 1 by omega,
        decide_eq_decide.2 (show (i + 1 ≤ i + 1 + d ∧ i + 1 + d < i + 1 + n) ↔ (i ≤ i + 1 + d ∧ i + 1 + d < i + (n + 1)) by
          omega)]
      rfl

end Sys2Proof.Machine
end

