-- ==== Sys2Proof/Laws/Exec.lean ====
section
/-! SUPPORT. One lemma for each operation that says once what it can do: the LOADED check, a command, an accepted word, an issued
word, an action of the host. -/
namespace Sys2Proof.Machine

theorem whenLoaded_loaded {s e : State} (h : s.loaded = true) : whenLoaded s e = e := by simp [whenLoaded, h]

theorem whenLoaded_not_loaded {s e : State} (h : s.loaded = false) : whenLoaded s e = raise .notLoaded s := by
  simp [whenLoaded, h]

theorem nextByte_fst (s : State) : (nextByte s).1 = { s with state := advance s.taps 8 s.state } := clockBits_fst 8 0 _ s

/-- The byte of `NextByte()` as the keystream byte at the register's present position. -/
theorem nextByte_snd (s : State) : (nextByte s).2 = keystreamByte s.taps s.state 0 := by
  refine BitVec.eq_of_getLsbD_eq fun j hj => ?_
  rw [nextByte, clockBits_getLsbD _ _ _ _ _ hj, keystreamByte, BitVec.getLsbD_ofFnLE]
  simp [hj]

theorem keystreamByte_advance (taps st : Word) (m n : Nat) :
    keystreamByte taps (advance taps m st) n = keystreamByte taps st (m + n) := by
  simp only [keystreamByte, outputAt_advance, Nat.add_assoc]

/-- What the core's registers hold after a command: INIT constructs, the others advance STATE if there is a Register. -/
theorem exec_register {i : Instr} {s t : State} (h : exec i s = .next t) :
    (∃ seed taps, i = .init seed taps ∧ t.state = coerceSeed seed ∧ t.taps = taps ∧ t.loaded = true) ∨
    (t.taps = s.taps ∧ t.loaded = s.loaded ∧
      t.state = if s.loaded = true then advance s.taps (stepsTaken i) s.state else s.state) := by
  cases i with
  | init seed taps => cases h; exact .inl ⟨seed, taps, rfl, rfl, rfl, rfl⟩
  | step =>
    cases h
    cases hl : s.loaded with
    | false => rw [whenLoaded_not_loaded hl]; simp [hl]
    | true => rw [whenLoaded_loaded hl]; simp [hl, stepsTaken, advance]
  | nextb =>
    cases h
    cases hl : s.loaded with
    | false => rw [whenLoaded_not_loaded hl]; simp [hl]
    | true => rw [whenLoaded_loaded hl]; simp [hl, stepsTaken, nextByte_fst]
  | xorb d =>
    cases h
    cases hl : s.loaded with
    | false => rw [whenLoaded_not_loaded hl]; simp [hl]
    | true => rw [whenLoaded_loaded hl]; simp [hl, stepsTaken, nextByte_fst]

/-- A command that begins with the LOADED check leaves the host's data alone and puts a sound response on the port. -/
theorem whenLoaded_respond_answers (s u : State) (d : Byte) (h1 : u.agenda = s.agenda) (h2 : u.received = s.received)
    (h3 : u.mem = s.mem) :
    ∃ r, (whenLoaded s (respond .ok d u)).agenda = s.agenda ∧ (whenLoaded s (respond .ok d u)).received = s.received ∧
      (whenLoaded s (respond .ok d u)).mem = s.mem ∧ (whenLoaded s (respond .ok d u)).rsp = some r ∧ r.sound := by
  cases hl : s.loaded with
  | false => exact ⟨⟨.notLoaded, 0x00#8⟩, by simp [whenLoaded_not_loaded hl, Response.sound, CoreFault.status]⟩
  | true => exact ⟨⟨.ok, d⟩, by simp [whenLoaded_loaded hl, Response.sound, h1, h2, h3]⟩

/-- A command always answers a next state; it leaves the host's data alone and puts a sound response on the port. -/
theorem exec_answers (i : Instr) (s : State) :
    ∃ t r, exec i s = .next t ∧ t.agenda = s.agenda ∧ t.received = s.received ∧ t.mem = s.mem ∧ t.rsp = some r ∧ r.sound := by
  cases i with
  | init seed taps => exact ⟨_, _, rfl, rfl, rfl, rfl, rfl, by simp [Response.sound]⟩
  | step =>
    obtain ⟨r, h⟩ := whenLoaded_respond_answers s (clock s).1 (bitAsByte (clock s).2) rfl rfl rfl
    exact ⟨_, r, rfl, h⟩
  | nextb =>
    obtain ⟨r, h⟩ := whenLoaded_respond_answers s (nextByte s).1 (nextByte s).2 (by rw [nextByte_fst]) (by rw [nextByte_fst])
      (by rw [nextByte_fst])
    exact ⟨_, r, rfl, h⟩
  | xorb d =>
    obtain ⟨r, h⟩ := whenLoaded_respond_answers s (nextByte s).1 (combine d (nextByte s).2) (by rw [nextByte_fst])
      (by rw [nextByte_fst]) (by rw [nextByte_fst])
    exact ⟨_, r, rfl, h⟩

/-- An accepted word either is a reserved opcode, or runs its command. -/
theorem accept_cases (w : CmdWord) (s : State) :
    (∃ i, decode w = .command i ∧ accept w s = exec i s) ∨
    (∃ op, decode w = .illegal op ∧ accept w s = .next (raise .illegalCommand s)) := by
  unfold accept
  cases h : decode w with
  | command i => exact .inl ⟨i, rfl, rfl⟩
  | illegal op => exact .inr ⟨op, rfl, rfl⟩

/-- As `exec_answers`, for any word. -/
theorem accept_answers (w : CmdWord) (s : State) :
    ∃ t r, accept w s = .next t ∧ t.agenda = s.agenda ∧ t.received = s.received ∧ t.mem = s.mem ∧ t.rsp = some r ∧ r.sound := by
  rcases accept_cases w s with ⟨i, -, h⟩ | ⟨op, -, h⟩
  · rw [h]; exact exec_answers i s
  · exact ⟨_, _, h, rfl, rfl, rfl, rfl, by simp [Response.sound]⟩

/-- What the port last showed makes no difference to the next command: every command writes the port anew. -/
theorem exec_ignores_port (i : Instr) (s : State) (r : Option Response) : exec i { s with rsp := r } = exec i s := by
  cases i with
  | init seed taps => rfl
  | step => rfl
  | nextb => simp only [exec, execNextb, whenLoaded, nextByte_fst, nextByte_snd, raise, respond]
  | xorb d => simp only [exec, execXorb, whenLoaded, nextByte_fst, nextByte_snd, raise, respond]

/-- As `exec_ignores_port`, for any word. -/
theorem accept_ignores_port (w : CmdWord) (s : State) (r : Option Response) : accept w { s with rsp := r } = accept w s := by
  unfold accept
  cases decode w with
  | command i => exact exec_ignores_port i s r
  | illegal op => rfl

/-- Issuing a word is accepting it and taking its response. -/
theorem issue_answers (w : CmdWord) (s : State) :
    ∃ t r, accept w s = .next t ∧ issue w s = .next (hostTakes t) ∧ t.agenda = s.agenda ∧ t.received = s.received ∧
      t.mem = s.mem ∧ t.rsp = some r ∧ r.sound := by
  obtain ⟨t, r, h, h1, h2, h3, h4, h5⟩ := accept_answers w s
  exact ⟨t, r, h, by rw [issue, h]; rfl, h1, h2, h3, h4, h5⟩

/-- An action of the host: an edge without a command, a reset, or an issued word with what the host then stores. -/
theorem act_cases (a : HostAction) (s : State) :
    (act a s = .next (quiet s) ∧ (a = .idle ∨ ∃ base, a = .apply base 0)) ∨
    (act a s = .next (resetCore s) ∧ a.isReset = true) ∨
    (∃ w, a = .command w ∧ act a s = issue w s) ∨
    (∃ base n p, a = .apply base (n + 1) ∧ memRead s.mem base = some p ∧
      act a s = onNext (issue (encode (.xorb p)) s) (fun t => .next (storeResult base n t))) ∨
    (∃ base n, a = .apply base (n + 1) ∧ memRead s.mem base = none ∧ act a s = .fault (.bufferByteAbsent base)) := by
  cases a with
  | command w => exact .inr (.inr (.inl ⟨w, rfl, rfl⟩))
  | idle => exact .inl ⟨rfl, .inl rfl⟩
  | reset o => exact .inr (.inl ⟨rfl, rfl⟩)
  | abandon w => exact .inr (.inl ⟨rfl, rfl⟩)
  | apply base n =>
    cases n with
    | zero => exact .inl ⟨rfl, .inr ⟨base, rfl⟩⟩
    | succ n =>
      cases h : memRead s.mem base with
      | some p => exact .inr (.inr (.inr (.inl ⟨base, n, p, rfl, h, by simp [act, applyByte, h]⟩)))
      | none => exact .inr (.inr (.inr (.inr ⟨base, n, rfl, h, by simp [act, applyByte, h]⟩)))

/-- What the host keeps of a response: on status OK the byte and one pass less to do, otherwise nothing. -/
theorem storeResult_cases (base n : Nat) (s : State) :
    (∃ c, s.rsp = some ⟨.ok, c⟩ ∧
      storeResult base n s = { s with mem := memWrite s.mem base c, agenda := .apply (base + 1) n :: s.agenda }) ∨
    ((∀ c, s.rsp ≠ some ⟨.ok, c⟩) ∧ storeResult base n s = s) := by
  unfold storeResult
  split
  · next c h => exact .inl ⟨c, h, rfl⟩
  all_goals next h => exact .inr ⟨by simp [h], rfl⟩

@[simp] theorem onNext_next (s : State) (f : State → Host.Outcome State Fault Refusal) : onNext (.next s) f = f s := rfl

/-- `m + n` transitions are `m`, then `n`. -/
theorem runSteps_add (m n : Nat) (s : State) : runSteps (m + n) s = onNext (runSteps m s) (runSteps n) := by
  induction m generalizing s with
  | zero => simp [runSteps]
  | succ m ih =>
    rw [Nat.add_right_comm]
    simp only [runSteps]
    cases step s with
    | next t => exact ih t
    | fault f => rfl
    | refused r => rfl

/-- A run's first transition, when it answers. -/
theorem runSteps_succ {s t : State} (k : Nat) (h : step s = .next t) : runSteps (k + 1) s = runSteps k t := by
  simp only [runSteps, h, onNext_next]

/-- What holds of a state and is kept by every transition holds after a run. -/
theorem runSteps_keeps (P : State → Prop) (hP : ∀ s t, P s → step s = .next t → P t) (k : Nat) (s t : State) (hs : P s)
    (h : runSteps k s = .next t) : P t := by
  induction k generalizing s with
  | zero => cases h; exact hs
  | succ k ih =>
    rw [runSteps] at h
    cases hst : step s with
    | next u => rw [hst] at h; exact ih u (hP s u hs hst) h
    | fault f => rw [hst] at h; cases h
    | refused r => rw [hst] at h; cases h

end Sys2Proof.Machine
end

