-- ==== Sys2Proof/Laws/Fields.lean ====
section
/-! SUPPORT. The laws of the command word's fields: each field of a packed word is what was packed, and a word is its fields. -/
namespace Sys2Proof

theorem packWord_getLsbD (op : Opcode) (a b : Word) (i : Nat) :
    (packWord op a b).getLsbD i =
      if i < 16 then b.getLsbD i else if i < 32 then a.getLsbD (i - 16) else op.getLsbD (i - 32) := by
  unfold packWord
  rw [BitVec.getLsbD_or, BitVec.getLsbD_or, BitVec.getLsbD_shiftLeft, BitVec.getLsbD_shiftLeft, BitVec.getLsbD_setWidth,
    BitVec.getLsbD_setWidth, BitVec.getLsbD_setWidth]
  by_cases h1 : i < 16
  · simp [h1, show i < 35 by omega, show i < 32 by omega]
  · have hb : b.getLsbD i = false := BitVec.getLsbD_of_ge b i (by omega)
    by_cases h2 : i < 32
    · simp [h1, h2, hb, show i < 35 by omega]; omega
    · have ha : a.getLsbD (i - 16) = false := BitVec.getLsbD_of_ge a _ (by omega)
      by_cases h3 : i < 35
      · simp [h1, h2, h3, hb, ha]; omega
      · have hop : op.getLsbD (i - 32) = false := BitVec.getLsbD_of_ge op _ (by omega)
        simp [h1, h2, h3, hop]

@[simp] theorem opField_packWord (op : Opcode) (a b : Word) : opField (packWord op a b) = op := by
  refine BitVec.eq_of_getLsbD_eq fun i hi => ?_
  rw [opField, BitVec.getLsbD_extractLsb', packWord_getLsbD, if_neg (by omega), if_neg (by omega)]
  simp [hi]

@[simp] theorem aField_packWord (op : Opcode) (a b : Word) : aField (packWord op a b) = a := by
  refine BitVec.eq_of_getLsbD_eq fun i hi => ?_
  rw [aField, BitVec.getLsbD_extractLsb', packWord_getLsbD, if_neg (by omega), if_pos (by omega)]
  simp [hi]

@[simp] theorem bField_packWord (op : Opcode) (a b : Word) : bField (packWord op a b) = b := by
  refine BitVec.eq_of_getLsbD_eq fun i hi => ?_
  rw [bField, BitVec.getLsbD_extractLsb', packWord_getLsbD, if_pos (by omega)]
  simp [hi]

/-- The data byte is the low half of operand B. -/
theorem dataField_eq (w : CmdWord) : dataField w = (bField w).setWidth 8 := by
  refine BitVec.eq_of_getLsbD_eq fun i hi => ?_
  rw [dataField, bField, BitVec.getLsbD_extractLsb', BitVec.getLsbD_setWidth, BitVec.getLsbD_extractLsb']
  simp [hi, show i < 16 by omega]

theorem packWord_fields (w : CmdWord) : packWord (opField w) (aField w) (bField w) = w := by
  refine BitVec.eq_of_getLsbD_eq fun i hi => ?_
  rw [packWord_getLsbD, opField, aField, bField, BitVec.getLsbD_extractLsb', BitVec.getLsbD_extractLsb',
    BitVec.getLsbD_extractLsb']
  split
  · next h => simp [h]
  · split
    · next h1 h2 => simp [show i - 16 < 16 by omega, show 16 + (i - 16) = i by omega]
    · next h1 h2 => simp [show i - 32 < 3 by omega, show 32 + (i - 32) = i by omega]

end Sys2Proof
end

