-- ==== Sys2Proof/Laws/PerInstr.lean ====
section
/-! SUPPORT. The families of statements made per command. EncodeCanonical: the word `encode` gives a command is a canonical word with
the command's own opcode (30_encoding.md R31, R37). -/
namespace Sys2Proof.Laws.EncodeCanonical

/-- The command's word is canonical, and its opcode is the one of 30_encoding.md R31. -/
def Statement (i : Instr) : Prop :=
  canonical (encode i) = true ∧
    opField (encode i) = match i with
      | .init _ _ => 0b001#3
      | .step => 0b010#3
      | .nextb => 0b011#3
      | .xorb _ => 0b100#3

theorem init (seed taps : Word) : Statement (.init seed taps) := by
  have h : opField (encode (.init seed taps)) = 0b001#3 := opField_packWord _ _ _
  refine ⟨?_, h⟩
  unfold canonical
  rw [show (encode (.init seed taps)).extractLsb' 32 3 = 0b001#3 from h]
  rfl

theorem step : Statement .step := ⟨by decide, by decide⟩

theorem nextb : Statement .nextb := ⟨by decide, by decide⟩

theorem xorb (data : Byte) : Statement (.xorb data) := by
  have h : opField (encode (.xorb data)) = 0b100#3 := opField_packWord _ _ _
  refine ⟨?_, h⟩
  unfold canonical
  rw [show (encode (.xorb data)).extractLsb' 32 3 = 0b100#3 from h]
  have h3 : (encode (.xorb data)).extractLsb' 8 24 = 0#24 := by
    refine BitVec.eq_of_getLsbD_eq fun i hi => ?_
    rw [BitVec.getLsbD_extractLsb', encode, packWord_getLsbD, BitVec.getLsbD_setWidth, BitVec.getLsbD_of_ge data (8 + i) (by omega)]
    simp [hi, show 8 + i < 32 by omega]
  show ((encode (.xorb data)).extractLsb' 8 24 == 0#24) = true
  rw [h3]; rfl

end Sys2Proof.Laws.EncodeCanonical
end

