-- ==== Sys2Proof/Tests/Slice0.lean ====
section
/-! SUPPORT. The model's own tests. Expected values are the vectors of spec/95_test_vectors.md (named in the comments) or written out by
hand from a rule; then one witness theorem for every statement of Certificates/Slice0 that has hypotheses. -/
namespace Sys2Proof.Tests
open Sys2Proof Sys2Proof.Machine

/-- A core with the given registers, nothing on its port, and a host with the given actions and the bytes 48 45 at address 16. -/
def mk (st tp : Word) (loaded : Bool) (agenda : List HostAction) : State :=
  { State.reset with state := st, taps := tp, loaded := loaded, agenda := agenda, mem := [(16, 0x48#8), (17, 0x45#8)] }

/-- What a test looks at: STATE, TAPS, LOADED and the response word. -/
def view (o : Host.Outcome State Fault Refusal) : Option (Word × Word × Bool × Option RspWord) :=
  (nextOf o).map (fun t => (t.state, t.taps, t.loaded, t.rspWord))

/-! ### Words (section 2.2; 30_encoding.md R38) -/

theorem test_decode_init : decode 0x1ACE1B400#35 = .command (.init 0xACE1#16 0xB400#16) := by decide -- DEC1
theorem test_decode_step : decode 0x2DEADBEEF#35 = .command .step := by decide -- DEC5
theorem test_decode_nextb : decode 0x3FFFFFFFF#35 = .command .nextb := by decide -- DEC7
theorem test_decode_xorb : decode 0x4ABCDEF48#35 = .command (.xorb 0x48#8) := by decide -- DEC9
theorem test_decode_reserved : decode 0x0ACE1B400#35 = .illegal 0b000#3 ∧ decode 0x7FFFFFFFF#35 = .illegal 0b111#3 := by
  decide -- DEC11, DEC14
theorem test_encode_words : encode (.init 0xACE1#16 0xB400#16) = 0x1ACE1B400#35 ∧ encode .step = 0x200000000#35 ∧
    encode .nextb = 0x300000000#35 ∧ encode (.xorb 0x48#8) = 0x400000048#35 := by decide -- R38
theorem test_table_word : decodeTableWord 40 0x4000000A9 = some (.xorb 0xA9#8) ∧ decodeTableWord 40 0x500000000 = none ∧
    decodeTableWord 40 0x900000000 = none := by decide -- P2 line 1; DEC12; bit 35 does not exist
theorem test_text_comment : assembleLine [' ', 'N', 'E', 'X', 'T', 'B', ' ', ';', 'x'] = some (.action (.command 0x300000000#35)) := by
  decide -- R38
theorem test_text_apply : assemble [['S', 'T', 'E', 'P'], [';'], ['A', 'P', 'P', 'L', 'Y', ' ', '1', '6', ',', '2']]
    = some [.command 0x200000000#35, .apply 16 2] := by decide -- R38, R39

/-! Smoke test of the well-formedness checks: each refuses an ill-formed word (30_encoding.md R34, R37). -/

theorem test_canonical_refuses_reserved : canonical 0x000000000#35 = false ∧ canonical 0x500000000#35 = false := by decide
theorem test_canonical_refuses_step_bits : canonical 0x200000001#35 = false ∧ canonical 0x280000000#35 = false := by decide
theorem test_canonical_refuses_nextb_bits : canonical 0x300000001#35 = false ∧ canonical 0x380000000#35 = false := by decide
theorem test_canonical_refuses_xorb_bits : canonical 0x400000100#35 = false ∧ canonical 0x480000000#35 = false := by decide
theorem test_canonical_accepts : canonical 0x1FFFFFFFF#35 = true ∧ canonical 0x4000000FF#35 = true := by decide

/-! ### Parity (section 2.1) -/

theorem test_parity : parity16 0xA400#16 = true ∧ parity16 0xB400#16 = false ∧ parity16 0x7FFF#16 = true := by decide -- PAR5 to PAR7

/-! ### Commands (sections 2.3, 2.4, 2.6, 2.7) -/

theorem test_init_zero_seed : view (exec (.init 0x0000#16 0xB400#16) State.reset) = some (0x0001#16, 0xB400#16, true, some 0x000#10) := by
  decide -- I2
theorem test_init_again : view (exec (.init 0x1234#16 0x0000#16) (mk 0x7BAC#16 0xB400#16 true [])) =
    some (0x1234#16, 0x0000#16, true, some 0x000#10) := by decide -- I5
theorem test_step_feedback : view (exec .step (mk 0x0001#16 0x0001#16 true [])) = some (0x8000#16, 0x0001#16, true, some 0x001#10) := by
  decide -- S4
theorem test_step_logical_shift : view (exec .step (mk 0xFFFE#16 0x0001#16 true [])) = some (0x7FFF#16, 0x0001#16, true, some 0x000#10) := by
  decide -- S15
theorem test_nextb : view (exec .nextb (mk 0xE546#16 0xB400#16 true [])) = some (0x17E5#16, 0xB400#16, true, some 0x046#10) := by
  decide -- B1, fourth byte
theorem test_nextb_tap_zero : view (exec .nextb (mk 0x6801#16 0x002D#16 true [])) = some (0x4168#16, 0x002D#16, true, some 0x001#10) := by
  decide -- B6, third byte
theorem test_xorb : view (exec (.xorb 0xAA#8) (mk 0xFFFF#16 0xFFFF#16 true [])) = some (0xFEFF#16, 0xFFFF#16, true, some 0x055#10) := by
  decide -- X6
theorem test_xorb_collapse : view (exec (.xorb 0xFF#8) (mk 0x0001#16 0xB400#16 true [])) = some (0x0000#16, 0xB400#16, true, some 0x0FE#10) := by
  decide -- X5

/-! ### Faults, reset and the host (programs P4 and P1) -/

theorem test_not_loaded : view (step (mk 0xACE1#16 0xB400#16 false [.command 0x400000048#35])) =
    some (0xACE1#16, 0xB400#16, false, some 0x200#10) := by decide -- X8
theorem test_illegal_wins : view (step (mk 0xACE1#16 0xB400#16 false [.command 0x7FFFFFFFF#35])) =
    some (0xACE1#16, 0xB400#16, false, some 0x100#10) := by decide -- P4 line 5
theorem test_ignored_bits : view (step (mk 0xD670#16 0xB400#16 true [.command 0x4ABCDEF48#35])) =
    some (0x3DD6#16, 0xB400#16, true, some 0x038#10) := by decide -- P4 line 9
theorem test_reset : (nextOf (step (mk 0xACE1#16 0xB400#16 true [.reset (some 0x200000000#35)]))).map
    (fun t => (t.loaded, t.rsp, t.received)) = some (false, none, []) := by decide -- P4 line 10, R76
theorem test_apply_byte : (nextOf (step (mk 0xACE1#16 0xB400#16 true [.apply 16 2]))).map (fun t => (t.state, t.mem, t.agenda)) =
    some (0x7BAC#16, [(16, 0xA9#8), (17, 0x45#8)], [.apply 17 1]) := by decide -- P1 line 1
theorem test_fetch_word : view (step (State.reset.withFetchWord 40 0x1ACE1B400)) = some (0xACE1#16, 0xB400#16, true, some 0x000#10) := by
  decide -- I1
theorem test_memory_write_keeps_order : memWrite [(16, 0x48#8), (18, 0x4C#8)] 17 0x45#8 = [(16, 0x48#8), (17, 0x45#8), (18, 0x4C#8)] ∧
    memPlace [] 16 [0x48#8, 0x45#8] = [(16, 0x48#8), (17, 0x45#8)] := by decide -- R21

/-! ### Witnesses: a state and operands that meet the hypotheses of each statement that has some -/

theorem witness_IgnoredBitsNeverMatter :
    (0x2DEADBEEF#35).extractLsb' 32 3 = (0x200000000#35).extractLsb' 32 3 ∧ (0x2DEADBEEF#35).extractLsb' 32 3 = 0b010#3 ∧
    (0x3FFFFFFFF#35).extractLsb' 32 3 = 0b011#3 ∧
    (0x4ABCDEF48#35).extractLsb' 32 3 = 0b100#3 ∧ (0x4ABCDEF48#35).extractLsb' 0 8 = (0x400000048#35).extractLsb' 0 8 ∧
    (0x1FFFFFFFF#35).extractLsb' 32 3 = 0b001#3 := by decide

theorem witness_ReservedOpcodesChangeNothing :
    (0x000000000#35).extractLsb' 32 3 ∈ [0b000#3, 0b101#3, 0b110#3, 0b111#3] ∧
    (0x500000000#35).extractLsb' 32 3 ∈ [0b000#3, 0b101#3, 0b110#3, 0b111#3] ∧
    (0x600000000#35).extractLsb' 32 3 ∈ [0b000#3, 0b101#3, 0b110#3, 0b111#3] ∧
    (0x7FFFFFFFF#35).extractLsb' 32 3 ∈ [0b000#3, 0b101#3, 0b110#3, 0b111#3] := by decide

theorem witness_ResponseWord : (mk 0x0000#16 0xFFFF#16 true []).loaded = true ∧ (mk 0x0000#16 0xFFFF#16 false []).loaded = false ∧
    (0x000000000#35).extractLsb' 32 3 ∈ [0b000#3, 0b101#3, 0b110#3, 0b111#3] ∧
    (0x500000000#35).extractLsb' 32 3 ∈ [0b000#3, 0b101#3, 0b110#3, 0b111#3] := by decide

theorem witness_ReInitOverwritesRegister : (∀ seed taps, Instr.step ≠ .init seed taps) ∧ (∀ seed taps, Instr.nextb ≠ .init seed taps) ∧
    ∀ seed taps, Instr.xorb 0x48#8 ≠ .init seed taps := by simp

theorem witness_TapMaskStoredVerbatim : (0xFFFE#16).getLsbD 0 = false ∧ (0x0000#16).getLsbD 0 = false := by decide

theorem witness_StepArithmetic : (0xB400#16).getLsbD 0 = false ∧ 14 < 15 := by decide

theorem witness_StepCommand : (mk 0xACE1#16 0xB400#16 true []).loaded = true ∧ (mk 0xACE1#16 0xB400#16 false []).loaded = false := by decide

theorem witness_ZeroStateIsFixedPoint : (mk 0x0000#16 0xFFFF#16 true []).loaded = true ∧ (mk 0x0000#16 0xFFFF#16 true []).state = 0x0000#16 := by
  decide

theorem witness_CollapseOnlyFromOne : (0xB400#16).getLsbD 0 = false ∧ nextState 0xB400#16 0x0001#16 = 0x0000#16 ∧
    nextState 0xB400#16 0x0002#16 = 0x0001#16 ∧ nextState 0xB400#16 0x0003#16 = 0x0001#16 := by decide

theorem witness_StepBijectiveIffBitZeroTapped : (0xB401#16).getLsbD 0 = true ∧ (0xB400#16).getLsbD 0 = false := by decide

theorem witness_BitZeroTappedGivesCycles : (0x002D#16).getLsbD 0 = true ∧ (0x0001#16).getLsbD 0 = true := by decide

theorem witness_EmptyMaskShiftsOut : 16 ≤ 16 := by decide

theorem witness_OutputRecurrence : 15 < 16 := by decide

theorem witness_FirstSixteenOutputs : 15 < 16 := by decide

theorem witness_NextByteAssembly : 7 < 8 := by decide

theorem witness_NextbCommand : (mk 0x0001#16 0xB400#16 true []).loaded = true ∧ (mk 0x0001#16 0xB400#16 false []).loaded = false := by decide

theorem witness_ByteBoundariesFollowCommands : (mk 0x759C#16 0xB400#16 true []).loaded = true ∧
    (mk 0x759C#16 0xB400#16 true []).state = advance (mk 0x759C#16 0xB400#16 true []).taps 3 0xACE1#16 := by decide

theorem witness_XorbCommand : (mk 0x0000#16 0xB400#16 true []).loaded = true ∧ (mk 0x0000#16 0xB400#16 true []).state = 0x0000#16 ∧
    (mk 0x0000#16 0xB400#16 false []).loaded = false := by decide

theorem witness_XorbIsNextbXorData : (mk 0xACE1#16 0xB400#16 true []).loaded = true := by decide

theorem witness_StepsEachCommandTakes : (mk 0xACE1#16 0xB400#16 true []).loaded = true ∧
    ∃ t, accept 0x300000000#35 (mk 0xACE1#16 0xB400#16 false []) = .next t ∧ t.rsp = some ⟨.notLoaded, 0x00#8⟩ ∧ Status.notLoaded ≠ .ok :=
  ⟨rfl, _, rfl, rfl, by decide⟩

theorem witness_ApplyOneByte : (mk 0xACE1#16 0xB400#16 true [.apply 17 1, .idle]).agenda = .apply 17 (0 + 1) :: [.idle] ∧
    (mk 0xACE1#16 0xB400#16 true [.apply 17 1, .idle]).loaded = true ∧
    memRead (mk 0xACE1#16 0xB400#16 true [.apply 17 1, .idle]).mem 17 = some 0x45#8 := by decide

theorem witness_ApplyTransformsBuffer : (mk 0xACE1#16 0xB400#16 true [.apply 16 2, .idle]).agenda = .apply 16 2 :: [.idle] ∧
    (mk 0xACE1#16 0xB400#16 true [.apply 16 2, .idle]).loaded = true ∧
    BufferPresent (mk 0xACE1#16 0xB400#16 true [.apply 16 2, .idle]).mem 16 2 ∧
    BufferPresent (mk 0xACE1#16 0xB400#16 true [.apply 16 2, .idle]).mem 0 0 := by decide

theorem witness_ApplyStopsOnNotLoaded : (mk 0xACE1#16 0xB400#16 false [.apply 16 2]).agenda = .apply 16 (1 + 1) :: [] ∧
    (mk 0xACE1#16 0xB400#16 false [.apply 16 2]).loaded = false ∧
    (memRead (mk 0xACE1#16 0xB400#16 false [.apply 16 2]).mem 16).isSome = true := by decide

theorem witness_ApplyIsItsExpansion : (mk 0xACE1#16 0xB400#16 true []).loaded = true ∧
    ∀ i, ∀ h : i < [0x48#8, 0x45#8].length, memRead (mk 0xACE1#16 0xB400#16 true []).mem (16 + i) = some [0x48#8, 0x45#8][i] := by decide

/-- A host about to encrypt two bytes with seed 0 and to decrypt them with seed 1. -/
def roundTrip : State := mk 0x0000#16 0x0000#16 false [.command (encode (.init 0x0000#16 0xB400#16)), .apply 16 2,
  .command (encode (.init 0x0001#16 0xB400#16)), .apply 16 2]

theorem witness_RoundTripRestoresBuffer :
    roundTrip.agenda = .command (encode (.init 0x0000#16 0xB400#16)) :: .apply 16 2 :: .command (encode (.init 0x0001#16 0xB400#16)) ::
      .apply 16 2 :: [] ∧
    coerceSeed 0x0000#16 = coerceSeed 0x0001#16 ∧ BufferPresent roundTrip.mem 16 2 := by decide

theorem witness_EmptyBufferDoesNothing : (mk 0x0000#16 0x0000#16 false [.apply 0 0]).agenda = .apply 0 0 :: [] := by decide

theorem witness_ApplyContinuesTheKeystream : (mk 0xACE1#16 0xB400#16 true []).loaded = true ∧
    BufferPresent (mk 0xACE1#16 0xB400#16 true []).mem 16 (1 + 1) := by decide

theorem witness_SeedAndTapSensitivity : 15 < 16 := by decide

theorem witness_NotLoadedFault : (mk 0xACE1#16 0xB400#16 false []).loaded = false ∧ (∀ seed taps, Instr.step ≠ .init seed taps) ∧
    (∃ t, accept 0x200000000#35 (mk 0xACE1#16 0xB400#16 false []) = .next t ∧ t.rsp = some ⟨.notLoaded, 0x00#8⟩) ∧
    (mk 0xACE1#16 0xB400#16 true []).loaded = true := ⟨rfl, by simp, ⟨_, rfl, rfl⟩, rfl⟩

theorem witness_FaultsArePrecise : ∃ t, accept 0x500000000#35 (mk 0xACE1#16 0xB400#16 true []) = .next t ∧
    t.rsp = some ⟨.illegalCommand, 0x00#8⟩ ∧ Status.illegalCommand ≠ .ok := ⟨_, rfl, rfl, by decide⟩

theorem witness_FaultPriority : decode 0x000000000#35 = .illegal 0b000#3 ∧ decode 0x400000000#35 = .command (.xorb 0x00#8) := by decide

theorem witness_FaultsAreNotSticky : ∃ t, accept 0x300000000#35 (mk 0xACE1#16 0xB400#16 false []) = .next t ∧
    t.rsp = some ⟨.notLoaded, 0x00#8⟩ ∧ Status.notLoaded ≠ .ok := ⟨_, rfl, rfl, by decide⟩

theorem witness_LoadedCommandsSucceed : (mk 0x0000#16 0x0000#16 true []).loaded = true := by decide

theorem witness_ResetClearsLoaded : (mk 0xACE1#16 0xB400#16 true [.reset none]).agenda = .reset none :: [] := by decide

theorem witness_LoadedChangesOnlyByInitAndReset :
    (∃ t, step (mk 0xACE1#16 0xB400#16 true [.abandon 0x200000000#35]) = .next t ∧ t.loaded ≠ true) ∧
    (∃ t, step (mk 0x0000#16 0x0000#16 false [.command 0x100000000#35]) = .next t ∧ t.loaded ≠ false) ∧
    (mk 0xACE1#16 0xB400#16 false []).loaded = false ∧ ∀ seed taps, Instr.nextb ≠ .init seed taps :=
  ⟨⟨_, rfl, by decide⟩, ⟨_, rfl, by decide⟩, rfl, by simp⟩

theorem witness_TapsWrittenByInitOnly :
    (∃ t, step (mk 0xACE1#16 0xB400#16 true [.reset none]) = .next t ∧ t.taps ≠ 0xB400#16) ∧
    ∃ t, step (mk 0xACE1#16 0xB400#16 true [.command 0x1ACE1002D#35]) = .next t ∧ t.taps ≠ 0xB400#16 :=
  ⟨⟨_, rfl, by decide⟩, ⟨_, rfl, by decide⟩⟩

theorem witness_HiddenRegisterIsUnobservable :
    SameButHidden (mk 0xACE1#16 0xB400#16 false [.apply 16 2]) (mk 0x0000#16 0x0000#16 false [.apply 16 2]) ∧
    SameButHidden (mk 0xACE1#16 0xB400#16 true [.idle]) (mk 0xACE1#16 0xB400#16 true [.idle]) ∧
    (∃ t, runSteps 1 (mk 0xACE1#16 0xB400#16 false [.apply 16 2]) = .next t) ∧
    SameButHidden (mk 0xACE1#16 0xB400#16 false [.apply 18 1]) (mk 0x0000#16 0x0000#16 false [.apply 18 1]) ∧
    runSteps 1 (mk 0xACE1#16 0xB400#16 false [.apply 18 1]) = .fault (.bufferByteAbsent 18) :=
  ⟨⟨rfl, by decide, rfl, rfl, rfl, rfl⟩, ⟨rfl, fun _ => ⟨rfl, rfl⟩, rfl, rfl, rfl, rfl⟩, ⟨_, rfl⟩, ⟨rfl, by decide, rfl, rfl, rfl, rfl⟩, rfl⟩

/-- A host that remembers a response and holds no buffer. -/
def forgetful (s : State) : State := { s with mem := [], received := [⟨.ok, 0xE1#8⟩] }

theorem witness_ResponsesDependOnCommandsOnly :
    (forgetful (mk 0xACE1#16 0xB400#16 true [.command 0x300000000#35, .reset none])).state = 0xACE1#16 ∧
    (forgetful (mk 0xACE1#16 0xB400#16 true [.command 0x300000000#35, .reset none])).taps = 0xB400#16 ∧
    (forgetful (mk 0xACE1#16 0xB400#16 true [.command 0x300000000#35, .reset none])).loaded = true ∧
    (forgetful (mk 0xACE1#16 0xB400#16 true [.command 0x300000000#35, .reset none])).agenda = [.command 0x300000000#35, .reset none] ∧
    ∀ a ∈ (mk 0xACE1#16 0xB400#16 true [.command 0x300000000#35, .reset none]).agenda, a.isPort = true := by decide

theorem witness_NonZeroInvariantKept : NonZeroInv (mk 0x0001#16 0x0001#16 true [.command 0x200000000#35]) ∧
    ∃ t, step (mk 0x0001#16 0x0001#16 true [.command 0x200000000#35]) = .next t := ⟨by decide, _, rfl⟩

theorem witness_MemoryFormKept : (mk 0xACE1#16 0xB400#16 true [.apply 16 2]).mem.wf ∧
    ∃ t, step (mk 0xACE1#16 0xB400#16 true [.apply 16 2]) = .next t := ⟨by decide, _, rfl⟩

theorem witness_ResponsesStaySound : ResponsesSound { mk 0xACE1#16 0xB400#16 false [.command 0x200000000#35] with
      received := [⟨.illegalCommand, 0x00#8⟩, ⟨.ok, 0xE1#8⟩] } ∧
    ∃ t, step { mk 0xACE1#16 0xB400#16 false [.command 0x200000000#35] with
      received := [⟨.illegalCommand, 0x00#8⟩, ⟨.ok, 0xE1#8⟩] } = .next t :=
  ⟨⟨fun r h => (by cases h), by decide⟩, _, rfl⟩

theorem witness_InBoundsRunNeverStops : AgendaInBounds (mk 0xACE1#16 0xB400#16 true [.apply 16 2, .command 0x500000000#35]) := by
  intro a h
  rcases List.mem_cons.1 h with rfl | h
  · show BufferPresent _ 16 2
    decide
  · rcases List.mem_cons.1 h with rfl | h
    · trivial
    · cases h

theorem witness_OnlyAbsentBufferByteStops : step (mk 0xACE1#16 0xB400#16 true [.apply 18 1]) = .fault (.bufferByteAbsent 18) ∧
    memRead (mk 0xACE1#16 0xB400#16 true [.apply 18 1]).mem 18 = none := ⟨rfl, rfl⟩

theorem witness_StepRunsDecodedCommand : (mk 0xACE1#16 0xB400#16 true [.command 0x2DEADBEEF#35]).agenda = .command 0x2DEADBEEF#35 :: [] ∧
    decode 0x2DEADBEEF#35 = .command .step ∧
    (mk 0xACE1#16 0xB400#16 false [.command 0x7FFFFFFFF#35]).agenda = .command 0x7FFFFFFFF#35 :: [] ∧
    decode 0x7FFFFFFFF#35 = .illegal 0b111#3 := by decide

theorem witness_FetchWordRunsNext : decodeTableWord 40 0x300000000 = some .nextb := by decide

end Sys2Proof.Tests
end

section
/-! SUPPORT. Rules for the proofs of the statements about the state (10_state.md): the equations of `step` and `accept` by case, what a
transition can do to the Register, and the relation between machines that differ in a hidden Register. -/
namespace Sys2Proof.Machine

/-! ### Equations of the port and of a transition, by case -/

theorem accept_command {w : CmdWord} {i : Instr} (h : decode w = .command i) (s : State) : accept w s = exec i s := by
  simp [accept, h]

theorem accept_illegal {w : CmdWord} {op : Opcode} (h : decode w = .illegal op) (s : State) :
    accept w s = .next (raise .illegalCommand s) := by simp [accept, h]

theorem hostTakes_of_rsp {s : State} {r : Response} (h : s.rsp = some r) :
    hostTakes s = { s with received := s.received ++ [r] } := by simp [hostTakes, h]

theorem step_of_agenda_nil {s : State} (h : s.agenda = []) : step s = .next (quiet s) := by simp [step, h]

theorem step_of_agenda_cons {s : State} {a : HostAction} {rest : List HostAction} (h : s.agenda = a :: rest) :
    step s = act a { s with agenda := rest } := by simp [step, h]

theorem step_of_command {s : State} {w : CmdWord} {rest : List HostAction} (h : s.agenda = .command w :: rest) :
    step s = issue w { s with agenda := rest } := step_of_agenda_cons h

/-- A table word that decodes is the number of a command word that decodes. -/
theorem tableWord_of_decodeTableWord {nbits w : Nat} {i : Instr} (h : decodeTableWord nbits w = some i) :
    ∃ c, tableWord nbits w = some c ∧ decode c = .command i := by
  unfold decodeTableWord at h
  split at h
  · next c hc =>
    refine ⟨c, hc, ?_⟩
    cases hd : decode c with
    | command j => rw [hd] at h; exact congrArg _ (Option.some.inj h)
    | illegal op => rw [hd] at h; cases h
  · cases h

theorem withFetchWord_of_tableWord {nbits w : Nat} {c : CmdWord} (h : tableWord nbits w = some c) (s : State) :
    s.withFetchWord nbits w = { s with agenda := .command c :: s.agenda } := by simp [State.withFetchWord, h]

/-- 30_encoding.md R37, for the one command that the host's loop issues. -/
theorem decode_encode_xorb (data : Byte) : decode (encode (.xorb data)) = .command (.xorb data) := by
  have hop : opField (encode (.xorb data)) = opXorb := opField_packWord _ _ _
  have hdata : dataField (encode (.xorb data)) = data := by
    rw [dataField_eq, encode, bField_packWord]
    exact BitVec.setWidth_setWidth_of_le data (by decide)
  rw [decode, hop, hdata]
  rfl

/-- Every command but INIT, without a Register, only raises NotLoaded (60_exceptions.md R73). -/
theorem exec_of_not_loaded {i : Instr} {s : State} (hl : s.loaded = false) (hi : ∀ seed taps, i ≠ .init seed taps) :
    exec i s = .next (raise .notLoaded s) := by
  cases i with
  | init seed taps => exact absurd rfl (hi seed taps)
  | step => exact congrArg _ (whenLoaded_not_loaded hl)
  | nextb => exact congrArg _ (whenLoaded_not_loaded hl)
  | xorb data => exact congrArg _ (whenLoaded_not_loaded hl)

/-! ### What a transition can do to the Register -/

/-- `t` holds the Register that INIT constructs (40_init.md R40). -/
structure Constructed (seed taps : Word) (t : State) : Prop where
  state : t.state = coerceSeed seed
  taps : t.taps = taps
  loaded : t.loaded = true

/-- From `s` to `t` the register took some number of steps, and nothing else of the Register changed. -/
structure Clocked (s t : State) : Prop where
  state : ∃ n, t.state = advance s.taps n s.state
  taps : t.taps = s.taps
  loaded : t.loaded = s.loaded

/-- Equal registers are zero steps apart. -/
theorem clocked_of_eq {s t : State} (hst : t.state = s.state) (htp : t.taps = s.taps) (hl : t.loaded = s.loaded) :
    Clocked s t := ⟨⟨0, hst⟩, htp, hl⟩

theorem exec_constructs_or_clocks {i : Instr} {s t : State} (h : exec i s = .next t) :
    (∃ seed taps, i = .init seed taps ∧ Constructed seed taps t) ∨ Clocked s t := by
  rcases exec_register h with ⟨seed, taps, hi, hst, htp, hl⟩ | ⟨htp, hl, hst⟩
  · exact .inl ⟨seed, taps, hi, hst, htp, hl⟩
  · refine .inr ⟨?_, htp, hl⟩
    split at hst
    · exact ⟨_, hst⟩
    · exact ⟨0, hst⟩

theorem accept_constructs_or_clocks {w : CmdWord} {s t : State} (h : accept w s = .next t) :
    (∃ seed taps, decode w = .command (.init seed taps) ∧ Constructed seed taps t) ∨ Clocked s t := by
  rcases accept_cases w s with ⟨i, hd, ha⟩ | ⟨op, -, ha⟩
  · rcases exec_constructs_or_clocks (ha ▸ h) with ⟨seed, taps, rfl, hc⟩ | hc
    · exact .inl ⟨seed, taps, hd, hc⟩
    · exact .inr hc
  · cases ha.symm.trans h
    exact .inr (clocked_of_eq rfl rfl rfl)

/-- As `accept_constructs_or_clocks`: the host's taking the response leaves the Register alone. -/
theorem issue_constructs_or_clocks {w : CmdWord} {s t : State} (h : issue w s = .next t) :
    (∃ seed taps, decode w = .command (.init seed taps) ∧ Constructed seed taps t) ∨ Clocked s t := by
  obtain ⟨u, -, ha, hi, -⟩ := issue_answers w s
  cases hi.symm.trans h
  rcases accept_constructs_or_clocks ha with ⟨seed, taps, hd, hst, htp, hl⟩ | ⟨hst, htp, hl⟩
  · exact .inl ⟨seed, taps, hd, by simpa using hst, by simpa using htp, by simpa using hl⟩
  · exact .inr ⟨by simpa using hst, by simpa using htp, by simpa using hl⟩

/-- What the host stores of a response leaves the Register alone. -/
theorem clocked_storeResult {s t : State} (base n : Nat) (h : Clocked s t) : Clocked s (storeResult base n t) := by
  rcases storeResult_cases base n t with ⟨c, -, ht⟩ | ⟨-, ht⟩ <;> rw [ht]
  · exact ⟨h.state, h.taps, h.loaded⟩
  · exact h

/-- A pass of APPLY issues an XORB, so it constructs no Register. -/
theorem issue_xorb_clocked {data : Byte} {s t : State} (h : issue (encode (.xorb data)) s = .next t) : Clocked s t := by
  rcases issue_constructs_or_clocks h with ⟨seed, taps, hd, -⟩ | hc
  · rw [decode_encode_xorb] at hd; cases hd
  · exact hc

/-- An action of the host resets the core, is an INIT, or leaves a Register that has only been clocked. -/
theorem act_resets_or_constructs_or_clocks {a : HostAction} {s t : State} (h : act a s = .next t) :
    (a.isReset = true ∧ t.loaded = false) ∨
    (∃ w seed taps, a = .command w ∧ decode w = .command (.init seed taps) ∧ Constructed seed taps t) ∨ Clocked s t := by
  rcases act_cases a s with ⟨ha, -⟩ | ⟨ha, hr⟩ | ⟨w, rfl, ha⟩ | ⟨base, n, p, -, -, ha⟩ | ⟨base, n, -, -, ha⟩
  · cases ha.symm.trans h
    exact .inr (.inr (clocked_of_eq rfl rfl rfl))
  · cases ha.symm.trans h
    exact .inl ⟨hr, rfl⟩
  · rcases issue_constructs_or_clocks (ha.symm.trans h) with ⟨seed, taps, hd, hc⟩ | hc
    · exact .inr (.inl ⟨w, seed, taps, rfl, hd, hc⟩)
    · exact .inr (.inr hc)
  · obtain ⟨u, -, -, hi, -⟩ := issue_answers (encode (.xorb p)) s
    rw [hi, onNext_next] at ha
    cases ha.symm.trans h
    exact .inr (.inr (clocked_storeResult base n (issue_xorb_clocked hi)))
  · cases ha.symm.trans h

/-- A transition resets the core, is an INIT, or leaves a Register that has only been clocked (10_state.md R11, R12). -/
theorem step_resets_or_constructs_or_clocks {s t : State} (h : step s = .next t) :
    (∃ a rest, s.agenda = a :: rest ∧ a.isReset = true ∧ t.loaded = false) ∨
    (∃ w rest seed taps, s.agenda = .command w :: rest ∧ decode w = .command (.init seed taps) ∧ Constructed seed taps t) ∨
    Clocked s t := by
  cases hag : s.agenda with
  | nil =>
    cases (step_of_agenda_nil hag).symm.trans h
    exact .inr (.inr (clocked_of_eq rfl rfl rfl))
  | cons a rest =>
    rw [step_of_agenda_cons hag] at h
    rcases act_resets_or_constructs_or_clocks h with ⟨hr, hl⟩ | ⟨w, seed, taps, rfl, hd, hc⟩ | ⟨hst, htp, hl⟩
    · exact .inl ⟨a, rest, rfl, hr, hl⟩
    · exact .inr (.inl ⟨w, rest, seed, taps, rfl, hd, hc⟩)
    · exact .inr (.inr ⟨hst, htp, hl⟩)

/-! ### The non-zero invariant -/

theorem coerceSeed_ne_zero (seed : Word) : coerceSeed seed ≠ 0x0000#16 := by
  unfold coerceSeed
  split
  · decide
  · assumption

/-- With bit 0 tapped, a register whose other bits are 0 feeds its bit 0 back (41_step.md R45, R46). -/
theorem feedback_of_upper_bits_zero {taps st : Word} (htap : taps.getLsbD 0 = true)
    (hup : ∀ i, st.getLsbD (i + 1) = false) : feedback taps st = st.getLsbD 0 := by
  simp only [feedback, parity16, BitVec.getLsbD_and, htap, hup, Bool.false_and, Bool.false_xor, Bool.and_true]

/-- With bit 0 tapped, only 0x0000 steps to 0x0000: a step to it would shift in a 0 over fifteen zero bits (41_step.md R52). -/
theorem nextState_ne_zero {taps st : Word} (htap : taps.getLsbD 0 = true) (hst : st ≠ 0x0000#16) :
    nextState taps st ≠ 0x0000#16 := by
  intro h
  have hbit (i : Nat) : (if i = 15 then feedback taps st else st.getLsbD (i + 1)) = false := by
    rw [← nextState_getLsbD, h, BitVec.getLsbD_zero]
  have hup (i : Nat) : st.getLsbD (i + 1) = false := by
    by_cases hi : i = 15
    · exact BitVec.getLsbD_of_ge st (i + 1) (by omega)
    · simpa [hi] using hbit i
  have hlow : st.getLsbD 0 = false := by
    rw [← feedback_of_upper_bits_zero htap hup]
    exact hbit 15
  refine hst (BitVec.eq_of_getLsbD_eq fun i _ => ?_)
  cases i with
  | zero => simpa using hlow
  | succ i => simpa using hup i

theorem advance_ne_zero {taps : Word} (htap : taps.getLsbD 0 = true) (n : Nat) {st : Word} (hst : st ≠ 0x0000#16) :
    advance taps n st ≠ 0x0000#16 := by
  induction n generalizing st with
  | zero => exact hst
  | succ n ih => exact ih (nextState_ne_zero htap hst)

theorem Constructed.state_ne_zero {seed taps : Word} {t : State} (h : Constructed seed taps t) : t.state ≠ 0x0000#16 :=
  h.state ▸ coerceSeed_ne_zero seed

theorem nonZeroInv_of_clocked {s t : State} (hs : NonZeroInv s) (h : Clocked s t) : NonZeroInv t := by
  intro hload htap
  obtain ⟨⟨n, hst⟩, htp, hl⟩ := h
  rw [htp] at htap
  rw [hst]
  exact advance_ne_zero htap n (hs (hl ▸ hload) htap)

/-! ### Machines that differ in a hidden Register -/

/-- Two outcomes are the same stop, or next states alike but for a hidden Register. -/
inductive SameOutcome : Host.Outcome State Fault Refusal → Host.Outcome State Fault Refusal → Prop where
  | next {s t : State} (h : SameButHidden s t) : SameOutcome (.next s) (.next t)
  | fault (f : Fault) : SameOutcome (.fault f) (.fault f)
  | refused (r : Refusal) : SameOutcome (.refused r) (.refused r)

theorem sameButHidden_refl (s : State) : SameButHidden s s := ⟨rfl, fun _ => ⟨rfl, rfl⟩, rfl, rfl, rfl, rfl⟩

/-- Once a Register is constructed nothing is hidden. -/
theorem SameButHidden.eq_of_loaded {s s' : State} (h : SameButHidden s s') (hl : s.loaded = true) : s' = s := by
  obtain ⟨hst, htp⟩ := h.register hl
  exact State.ext_fields hst htp h.loaded h.rsp h.agenda h.received h.mem

theorem sameButHidden_agenda {s s' : State} (h : SameButHidden s s') (as : List HostAction) :
    SameButHidden { s with agenda := as } { s' with agenda := as } := { h with agenda := rfl }

theorem sameButHidden_quiet {s s' : State} (h : SameButHidden s s') : SameButHidden (quiet s) (quiet s') :=
  { h with rsp := rfl }

theorem sameButHidden_raise {s s' : State} (h : SameButHidden s s') (f : CoreFault) :
    SameButHidden (raise f s) (raise f s') := { h with rsp := rfl }

theorem sameButHidden_resetCore {s s' : State} (h : SameButHidden s s') : SameButHidden (resetCore s) (resetCore s') :=
  ⟨rfl, fun _ => ⟨rfl, rfl⟩, rfl, h.agenda, h.received, h.mem⟩

theorem sameButHidden_hostTakes {s s' : State} (h : SameButHidden s s') : SameButHidden (hostTakes s) (hostTakes s') where
  loaded := by simpa using h.loaded
  register := by simpa using h.register
  rsp := by simpa using h.rsp
  agenda := by simpa using h.agenda
  received := by simp [h.received, h.rsp]
  mem := by simpa using h.mem

theorem sameButHidden_storeResult {s s' : State} (h : SameButHidden s s') (base n : Nat) :
    SameButHidden (storeResult base n s) (storeResult base n s') := by
  rcases storeResult_cases base n s with ⟨c, hr, hs⟩ | ⟨hr, hs⟩ <;>
    rcases storeResult_cases base n s' with ⟨c', hr', hs'⟩ | ⟨hr', hs'⟩ <;> rw [h.rsp] at hr'
  · cases hr.symm.trans hr'
    rw [hs, hs']
    exact { h with agenda := by simp [h.agenda], mem := by simp [h.mem] }
  · exact absurd hr (hr' c)
  · exact absurd hr' (hr c')
  · rw [hs, hs']
    exact h

theorem sameOutcome_onNext {o o' : Host.Outcome State Fault Refusal} {f f' : State → Host.Outcome State Fault Refusal}
    (ho : SameOutcome o o') (hf : ∀ t t', SameButHidden t t' → SameOutcome (f t) (f' t')) :
    SameOutcome (onNext o f) (onNext o' f') := by
  cases ho with
  | next h => exact hf _ _ h
  | fault f => exact .fault f
  | refused r => exact .refused r

theorem SameOutcome.exists_next {t : State} {o : Host.Outcome State Fault Refusal} (h : SameOutcome (.next t) o) :
    ∃ t', o = .next t' ∧ SameButHidden t t' := by
  cases h with
  | next h => exact ⟨_, rfl, h⟩

theorem SameOutcome.eq_fault {f : Fault} {o : Host.Outcome State Fault Refusal} (h : SameOutcome (.fault f) o) :
    o = .fault f := by
  cases h with
  | fault => rfl

/-- INIT constructs the same Register from both machines; no other command reads a hidden one. -/
theorem exec_sameOutcome (i : Instr) {s s' : State} (h : SameButHidden s s') : SameOutcome (exec i s) (exec i s') := by
  have hraise (hl : s.loaded = false) (hi : ∀ seed taps, i ≠ .init seed taps) : SameOutcome (exec i s) (exec i s') := by
    rw [exec_of_not_loaded hl hi, exec_of_not_loaded (h.loaded.trans hl) hi]
    exact .next (sameButHidden_raise h _)
  cases hl : s.loaded with
  | true =>
    rw [h.eq_of_loaded hl]
    obtain ⟨t, -, ht, -⟩ := exec_answers i s
    rw [ht]
    exact .next (sameButHidden_refl t)
  | false =>
    cases i with
    | init seed taps => exact .next ⟨rfl, fun _ => ⟨rfl, rfl⟩, rfl, h.agenda, h.received, h.mem⟩
    | step => exact hraise hl (by simp)
    | nextb => exact hraise hl (by simp)
    | xorb data => exact hraise hl (by simp)

theorem accept_sameOutcome (w : CmdWord) {s s' : State} (h : SameButHidden s s') :
    SameOutcome (accept w s) (accept w s') := by
  cases hd : decode w with
  | command i =>
    rw [accept_command hd, accept_command hd]
    exact exec_sameOutcome i h
  | illegal op =>
    rw [accept_illegal hd, accept_illegal hd]
    exact .next (sameButHidden_raise h _)

theorem issue_sameOutcome (w : CmdWord) {s s' : State} (h : SameButHidden s s') : SameOutcome (issue w s) (issue w s') :=
  sameOutcome_onNext (accept_sameOutcome w h) fun _ _ ht => .next (sameButHidden_hostTakes ht)

theorem applyByte_sameOutcome (base n : Nat) {s s' : State} (h : SameButHidden s s') :
    SameOutcome (applyByte base n s) (applyByte base n s') := by
  unfold applyByte
  rw [h.mem]
  split
  · exact sameOutcome_onNext (issue_sameOutcome _ h) fun _ _ ht => .next (sameButHidden_storeResult ht base n)
  · exact .fault _

theorem act_sameOutcome (a : HostAction) {s s' : State} (h : SameButHidden s s') : SameOutcome (act a s) (act a s') := by
  cases a with
  | command w => exact issue_sameOutcome w h
  | apply base n =>
    cases n with
    | zero => exact .next (sameButHidden_quiet h)
    | succ n => exact applyByte_sameOutcome base n h
  | idle => exact .next (sameButHidden_quiet h)
  | reset offered => exact .next (sameButHidden_resetCore h)
  | abandon w => exact .next (sameButHidden_resetCore h)

theorem step_sameOutcome {s s' : State} (h : SameButHidden s s') : SameOutcome (step s) (step s') := by
  cases hag : s.agenda with
  | nil =>
    rw [step_of_agenda_nil hag, step_of_agenda_nil (h.agenda.trans hag)]
    exact .next (sameButHidden_quiet h)
  | cons a rest =>
    rw [step_of_agenda_cons hag, step_of_agenda_cons (h.agenda.trans hag)]
    exact act_sameOutcome a (sameButHidden_agenda h rest)

theorem runSteps_sameOutcome (k : Nat) {s s' : State} (h : SameButHidden s s') :
    SameOutcome (runSteps k s) (runSteps k s') := by
  induction k generalizing s s' with
  | zero => exact .next h
  | succ k ih => exact sameOutcome_onNext (step_sameOutcome h) fun _ _ ht => ih ht

end Sys2Proof.Machine
end

section
/-! SUPPORT. The statements about the state (10_state.md), settled. -/
namespace Sys2Proof.Proofs
open Sys2Proof.Machine

/-- Settles O48: a hidden Register is kept hidden by every transition, by induction on the run. -/
theorem hiddenRegisterIsUnobservable : Obligations.HiddenRegisterIsUnobservable := by
  intro k s s' h
  have hrun := runSteps_sameOutcome k h
  exact ⟨fun t ht => (ht ▸ hrun).exists_next, fun f hf => (hf ▸ hrun).eq_fault⟩

/-- Settles O50: reset leaves no Register, INIT coerces its seed, and with bit 0 tapped no step reaches 0x0000. -/
theorem nonZeroInvariantKept : Obligations.NonZeroInvariantKept := by
  intro s t hs h
  rcases step_resets_or_constructs_or_clocks h with ⟨_, _, -, -, hl⟩ | ⟨_, _, _, _, -, -, hc⟩ | hc
  · intro hload
    simp [hl] at hload
  · exact fun _ _ => hc.state_ne_zero
  · exact nonZeroInv_of_clocked hs hc

/-- Settles O46: a clocked Register keeps LOADED, and without a Register a command other than INIT only raises NotLoaded. -/
theorem loadedChangesOnlyByInitAndReset : Obligations.LoadedChangesOnlyByInitAndReset := by
  refine ⟨fun s t h hne => ?_, fun i s hl hi => ?_⟩
  · rcases step_resets_or_constructs_or_clocks h with hr | ⟨w, rest, seed, taps, hag, hd, hc⟩ | hc
    · exact .inl hr
    · exact .inr ⟨w, rest, seed, taps, hag, hd, hc.loaded⟩
    · exact absurd hc.loaded hne
  · exact ⟨raise .notLoaded s, exec_of_not_loaded hl hi, rfl, rfl, rfl, fun st tp => exec_of_not_loaded hl hi⟩

/-- Settles O47: a clocked Register keeps TAPS, and INIT stores its mask. -/
theorem tapsWrittenByInitOnly : Obligations.TapsWrittenByInitOnly := by
  refine ⟨fun s t h hne => ?_, fun seed taps s => ⟨_, rfl, rfl⟩⟩
  rcases step_resets_or_constructs_or_clocks h with ⟨a, rest, hag, hr, -⟩ | ⟨w, rest, seed, taps, hag, hd, hc⟩ | hc
  · exact .inl ⟨a, rest, hag, hr⟩
  · exact .inr ⟨w, rest, seed, hag, by rw [hc.taps]; exact hd⟩
  · exact absurd hc.taps hne

/-- Settles O43: the reset state has no Register, so STEP there raises NotLoaded. -/
theorem resetState : Obligations.ResetState :=
  ⟨rfl, rfl, rfl, raise .notLoaded State.reset, exec_of_not_loaded rfl (by simp), rfl⟩

/-- Settles O51: at reset there is no Register, and INIT coerces its seed. -/
theorem nonZeroInvariantStarts : Obligations.NonZeroInvariantStarts := by
  refine ⟨fun hload => Bool.noConfusion hload, fun seed taps s => ⟨_, rfl, ?_⟩⟩
  exact ⟨coerceSeed_ne_zero seed, fun _ _ => coerceSeed_ne_zero seed⟩

/-- Settles O57, from what issuing a word answers. -/
theorem stepRunsDecodedCommand : Obligations.StepRunsDecodedCommand := by
  refine ⟨fun s w i rest hag hd => ?_, fun s w op rest hag hd => ?_, fun s rest => ⟨rfl, rfl⟩⟩
  · obtain ⟨t, r, ha, hi, -, hrec, -, hr, -⟩ := issue_answers w { s with agenda := rest }
    refine ⟨t, r, accept_command hd _ ▸ ha, hr, ?_⟩
    rw [step_of_command hag, hi, hostTakes_of_rsp hr, hrec]
  · rw [step_of_command hag, issue, accept_illegal hd]
    rfl

/-- Settles O59: the offered word is at the head of the agenda, and taking it off leaves the state it was offered in. -/
theorem fetchWordRunsNext : Obligations.FetchWordRunsNext := by
  intro s nbits w i h
  obtain ⟨c, hc, hd⟩ := tableWord_of_decodeTableWord h
  rw [withFetchWord_of_tableWord hc, step_of_command rfl, issue, accept_command hd]

end Sys2Proof.Proofs
end

section
/-! SUPPORT. Rules for the proofs of the statements about the host's memory (20_memory.md): what a transition can do to the memory, and
when it stops. -/
namespace Sys2Proof.Machine

/-! ### What a transition can do to the host's memory -/

/-- No command touches the host's memory, and nor does the host's taking the response (20_memory.md R20). -/
theorem issue_mem {w : CmdWord} {s t : State} (h : issue w s = .next t) : t.mem = s.mem := by
  obtain ⟨u, -, -, hi, -, -, hm, -⟩ := issue_answers w s
  cases hi.symm.trans h
  simpa using hm

theorem storeResult_mem (base n : Nat) (s : State) :
    (storeResult base n s).mem = s.mem ∨ ∃ c, (storeResult base n s).mem = memWrite s.mem base c := by
  rcases storeResult_cases base n s with ⟨c, -, hs⟩ | ⟨-, hs⟩ <;> rw [hs]
  · exact .inr ⟨c, rfl⟩
  · exact .inl rfl

/-- The host's memory changes only where a pass of APPLY stores its byte (20_memory.md R20, R21). -/
theorem act_mem {a : HostAction} {s t : State} (h : act a s = .next t) :
    t.mem = s.mem ∨ ∃ base n c, a = .apply base (n + 1) ∧ t.mem = memWrite s.mem base c := by
  rcases act_cases a s with ⟨ha, -⟩ | ⟨ha, -⟩ | ⟨w, -, ha⟩ | ⟨base, n, p, rfl, -, ha⟩ | ⟨base, n, -, -, ha⟩
  · cases ha.symm.trans h
    exact .inl rfl
  · cases ha.symm.trans h
    exact .inl rfl
  · exact .inl (issue_mem (ha.symm.trans h))
  · obtain ⟨u, -, -, hi, -⟩ := issue_answers (encode (.xorb p)) s
    rw [hi, onNext_next] at ha
    cases ha.symm.trans h
    rw [← issue_mem hi]
    rcases storeResult_mem base n (hostTakes u) with hm | ⟨c, hm⟩
    · exact .inl hm
    · exact .inr ⟨base, n, c, rfl, hm⟩
  · cases ha.symm.trans h

/-- As `act_mem`, for the action at the head of the agenda. -/
theorem step_mem {s t : State} (h : step s = .next t) :
    t.mem = s.mem ∨ ∃ base n rest c, s.agenda = .apply base (n + 1) :: rest ∧ t.mem = memWrite s.mem base c := by
  cases hag : s.agenda with
  | nil =>
    cases (step_of_agenda_nil hag).symm.trans h
    exact .inl rfl
  | cons a rest =>
    rw [step_of_agenda_cons hag] at h
    rcases act_mem h with hm | ⟨base, n, c, rfl, hm⟩
    · exact .inl hm
    · exact .inr ⟨base, n, rest, c, rfl, hm⟩

/-! ### When a transition stops -/

theorem act_apply_of_absent {s : State} {base : Nat} (n : Nat) (h : memRead s.mem base = none) :
    act (.apply base (n + 1)) s = .fault (.bufferByteAbsent base) := by simp [act, applyByte, h]

theorem step_of_absent {s : State} {base n : Nat} {rest : List HostAction} (hag : s.agenda = .apply base (n + 1) :: rest)
    (h : memRead s.mem base = none) : step s = .fault (.bufferByteAbsent base) :=
  (step_of_agenda_cons hag).trans (act_apply_of_absent n h)

/-- Every action of the host answers a next state, but for a pass of APPLY over an absent byte. -/
theorem act_answers_or_absent (a : HostAction) (s : State) :
    (∃ t, act a s = .next t) ∨ ∃ base n, a = .apply base (n + 1) ∧ memRead s.mem base = none := by
  rcases act_cases a s with ⟨ha, -⟩ | ⟨ha, -⟩ | ⟨w, -, ha⟩ | ⟨base, n, p, -, -, ha⟩ | ⟨base, n, hap, hm, -⟩
  · exact .inl ⟨_, ha⟩
  · exact .inl ⟨_, ha⟩
  · obtain ⟨u, -, -, hi, -⟩ := issue_answers w s
    exact .inl ⟨_, ha.trans hi⟩
  · obtain ⟨u, -, -, hi, -⟩ := issue_answers (encode (.xorb p)) s
    rw [hi, onNext_next] at ha
    exact .inl ⟨_, ha⟩
  · exact .inr ⟨base, n, hap, hm⟩

/-- As `act_answers_or_absent`, for the action at the head of the agenda. -/
theorem step_answers_or_absent (s : State) :
    (∃ t, step s = .next t) ∨
      ∃ base n rest, s.agenda = .apply base (n + 1) :: rest ∧ memRead s.mem base = none := by
  cases hag : s.agenda with
  | nil => exact .inl ⟨_, step_of_agenda_nil hag⟩
  | cons a rest =>
    rw [step_of_agenda_cons hag]
    rcases act_answers_or_absent a { s with agenda := rest } with ht | ⟨base, n, rfl, hm⟩
    · exact .inl ht
    · exact .inr ⟨base, n, rest, rfl, hm⟩

end Sys2Proof.Machine
end

section
/-! SUPPORT. The statements about the host's memory (20_memory.md), settled. -/
namespace Sys2Proof.Proofs
open Sys2Proof.Machine

/-- Settles O52: a transition leaves the memory as it is or writes one byte, and a write keeps the form. -/
theorem memoryFormKept : Obligations.MemoryFormKept := by
  intro s t hs h
  rcases step_mem h with hm | ⟨base, n, rest, c, -, hm⟩ <;> rw [hm]
  · exact hs
  · exact memWrite_wf s.mem base c hs

/-- Settles O56: a transition that does not answer is a pass of APPLY over an absent byte, and that one faults. -/
theorem onlyAbsentBufferByteStops : Obligations.OnlyAbsentBufferByteStops := by
  intro s
  refine ⟨fun r hr => ?_, fun f => ⟨fun hf => ?_, ?_⟩⟩
  · rcases step_answers_or_absent s with ⟨t, ht⟩ | ⟨base, n, rest, hag, hm⟩
    · cases ht.symm.trans hr
    · cases (step_of_absent hag hm).symm.trans hr
  · rcases step_answers_or_absent s with ⟨t, ht⟩ | ⟨base, n, rest, hag, hm⟩
    · cases ht.symm.trans hf
    · cases (step_of_absent hag hm).symm.trans hf
      exact ⟨base, n, rest, hag, hm, rfl⟩
  · rintro ⟨base, n, rest, hag, hm, rfl⟩
    exact step_of_absent hag hm

/-- Settles O53: at reset the memory, the port and the record of responses are empty. -/
theorem formsHoldAtReset : Obligations.FormsHoldAtReset := by
  have hport : State.reset.rsp = none := rfl
  have htaken : State.reset.received = [] := rfl
  exact ⟨List.Pairwise.nil, by simp [hport], by simp [htaken]⟩

/-- Settles O58, from what a command answers: it leaves the memory equal, so every read of it. -/
theorem commandsLeaveHostAlone : Obligations.CommandsLeaveHostAlone := by
  intro i s
  obtain ⟨t, r, ht, hag, hrec, hm, hr, -⟩ := exec_answers i s
  exact ⟨t, r, ht, hr, hag, hrec, fun a => by rw [hm]⟩

end Sys2Proof.Proofs
end

section
/-! SUPPORT. Rules for the proofs of the statements about the encoding (30_encoding.md): the decoder and the canonical words by opcode,
a word as the concatenation of its fields, and the word that encodes what a word decodes to. -/
namespace Sys2Proof

/-! ### The opcode map -/

/-- The opcodes that name no command (30_encoding.md R33). -/
abbrev reservedOpcodes : List Opcode := [0b000#3, 0b101#3, 0b110#3, 0b111#3]

theorem opcode_cases (op : Opcode) : op = opInit ∨ op = opStep ∨ op = opNextb ∨ op = opXorb ∨ op ∈ reservedOpcodes := by
  revert op
  decide

theorem ne_of_mem_reservedOpcodes {op : Opcode} (h : op ∈ reservedOpcodes) :
    op ≠ opInit ∧ op ≠ opStep ∧ op ≠ opNextb ∧ op ≠ opXorb := by
  revert op
  decide

/-! ### The decoder, by opcode -/

theorem decode_of_opInit {w : CmdWord} (h : opField w = opInit) : decode w = .command (.init (aField w) (bField w)) := if_pos h

theorem decode_of_opStep {w : CmdWord} (h : opField w = opStep) : decode w = .command .step := by
  rw [decode, h]
  rfl

theorem decode_of_opNextb {w : CmdWord} (h : opField w = opNextb) : decode w = .command .nextb := by
  rw [decode, h]
  rfl

theorem decode_of_opXorb {w : CmdWord} (h : opField w = opXorb) : decode w = .command (.xorb (dataField w)) := by
  rw [decode, h]
  rfl

theorem decode_of_reserved {w : CmdWord} (h : opField w ∈ reservedOpcodes) : decode w = .illegal (opField w) := by
  obtain ⟨hinit, hstep, hnextb, hxorb⟩ := ne_of_mem_reservedOpcodes h
  rw [decode, if_neg hinit, if_neg hstep, if_neg hnextb, if_neg hxorb]

/-! ### The canonical words, by opcode -/

theorem canonical_of_opStep {w : CmdWord} (h : opField w = opStep) : canonical w = (w.extractLsb' 0 32 == 0#32) := by
  rw [canonical, show w.extractLsb' 32 3 = opStep from h]
  rfl

theorem canonical_of_opNextb {w : CmdWord} (h : opField w = opNextb) : canonical w = (w.extractLsb' 0 32 == 0#32) := by
  rw [canonical, show w.extractLsb' 32 3 = opNextb from h]
  rfl

theorem canonical_of_opXorb {w : CmdWord} (h : opField w = opXorb) : canonical w = (w.extractLsb' 8 24 == 0#24) := by
  rw [canonical, show w.extractLsb' 32 3 = opXorb from h]
  rfl

theorem canonical_of_reserved {w : CmdWord} (h : opField w ∈ reservedOpcodes) : canonical w = false := by
  simp only [List.mem_cons, List.not_mem_nil, or_false] at h
  rcases h with h | h | h | h <;> rw [canonical, show w.extractLsb' 32 3 = _ from h] <;> rfl

theorem canonical_encode (i : Instr) : canonical (encode i) = true := by
  cases i with
  | init seed taps => exact (Laws.EncodeCanonical.init seed taps).1
  | step => exact Laws.EncodeCanonical.step.1
  | nextb => exact Laws.EncodeCanonical.nextb.1
  | xorb data => exact (Laws.EncodeCanonical.xorb data).1

/-! ### A word is the concatenation of its fields -/

/-- The fields of INIT. -/
theorem opField_append_aField_append_bField (w : CmdWord) : opField w ++ aField w ++ bField w = w := by
  rw [opField, aField, bField, BitVec.extractLsb'_append_extractLsb'_eq_extractLsb' (show 32 = 16 + 16 from rfl),
    BitVec.extractLsb'_append_extractLsb'_eq_extractLsb' (show 16 = 0 + 16 from rfl), BitVec.extractLsb'_eq_self]

/-- The opcode and the bits that STEP and NEXTB ignore. -/
theorem opField_append_operands (w : CmdWord) : opField w ++ w.extractLsb' 0 32 = w := by
  rw [opField, BitVec.extractLsb'_append_extractLsb'_eq_extractLsb' (show 32 = 0 + 32 from rfl), BitVec.extractLsb'_eq_self]

/-- The opcode, the bits that XORB ignores, and its data byte. -/
theorem opField_append_ignored_append_dataField (w : CmdWord) : opField w ++ w.extractLsb' 8 24 ++ dataField w = w := by
  rw [opField, dataField, BitVec.extractLsb'_append_extractLsb'_eq_extractLsb' (show 32 = 8 + 24 from rfl),
    BitVec.extractLsb'_append_extractLsb'_eq_extractLsb' (show 8 = 0 + 8 from rfl), BitVec.extractLsb'_eq_self]

/-! ### Decoding and encoding -/

theorem decode_encode (i : Instr) : decode (encode i) = .command i := by
  cases i with
  | init seed taps => rw [encode, decode_of_opInit (opField_packWord _ _ _), aField_packWord, bField_packWord]
  | step => exact decode_of_opStep (opField_packWord _ _ _)
  | nextb => exact decode_of_opNextb (opField_packWord _ _ _)
  | xorb data => exact Machine.decode_encode_xorb data

theorem encode_init_eq_append (seed taps : Word) : encode (.init seed taps) = opInit ++ seed ++ taps := by
  have hw := opField_append_aField_append_bField (packWord opInit seed taps)
  rw [opField_packWord, aField_packWord, bField_packWord] at hw
  exact hw.symm

/-- The three fields of XORB's word are its opcode, zeros because the word is canonical, and the data byte it decodes to. -/
theorem encode_xorb_eq_append (data : Byte) : encode (.xorb data) = opXorb ++ 0#24 ++ data := by
  have hop : opField (encode (.xorb data)) = opXorb := opField_packWord _ _ _
  have hzero : (encode (.xorb data)).extractLsb' 8 24 = 0#24 := by
    rw [← beq_iff_eq, ← canonical_of_opXorb hop, canonical_encode]
  have hdata : dataField (encode (.xorb data)) = data := by
    simpa using (decode_of_opXorb hop).symm.trans (decode_encode (.xorb data))
  have hw := opField_append_ignored_append_dataField (encode (.xorb data))
  rw [hop, hzero, hdata] at hw
  exact hw.symm

/-- INIT ignores no bit, so every word with its opcode is the encoding of its operands. -/
theorem encode_of_opInit {w : CmdWord} (h : opField w = opInit) : encode (.init (aField w) (bField w)) = w := by
  rw [encode, ← h, packWord_fields]

/-- A canonical word decodes to a command, and is that command's encoding. -/
theorem exists_command_of_canonical {w : CmdWord} (h : canonical w = true) : ∃ i, decode w = .command i ∧ encode i = w := by
  rcases opcode_cases (opField w) with hop | hop | hop | hop | hop
  · exact ⟨_, decode_of_opInit hop, encode_of_opInit hop⟩
  · rw [canonical_of_opStep hop, beq_iff_eq] at h
    have hw := opField_append_operands w
    rw [hop, h] at hw
    exact ⟨_, decode_of_opStep hop, hw⟩
  · rw [canonical_of_opNextb hop, beq_iff_eq] at h
    have hw := opField_append_operands w
    rw [hop, h] at hw
    exact ⟨_, decode_of_opNextb hop, hw⟩
  · rw [canonical_of_opXorb hop, beq_iff_eq] at h
    have hw := opField_append_ignored_append_dataField w
    rw [hop, h] at hw
    exact ⟨_, decode_of_opXorb hop, (encode_xorb_eq_append _).trans hw⟩
  · rw [canonical_of_reserved hop] at h
    cases h

theorem exists_command_encode_eq_iff_canonical (w : CmdWord) :
    (∃ i, decode w = .command i ∧ encode i = w) ↔ canonical w = true := by
  refine ⟨?_, exists_command_of_canonical⟩
  rintro ⟨i, -, rfl⟩
  exact canonical_encode i

end Sys2Proof
end

section
/-! SUPPORT. Rules for the proofs of the statements about the encoding (30_encoding.md): the response word, what each command answers on a
loaded core, and APPLY beside the commands it stands for. -/
namespace Sys2Proof.Machine

/-! ### Words that decode alike -/

/-- Only what a word decodes to reaches the core (30_encoding.md R34). -/
theorem accept_congr {w v : CmdWord} (h : decode w = decode v) (s : State) : accept w s = accept v s := by
  rw [accept, accept, h]

/-! ### The response word -/

theorem Response.word_eq_append (r : Response) : r.word = r.st.code ++ r.data := by
  rw [BitVec.append_def, BitVec.shiftLeftZeroExtend_eq, BitVec.setWidth'_eq]
  rfl

/-- 0b11 is no status code (30_encoding.md R36). -/
theorem Status.code_ne_three (st : Status) : st.code ≠ 0b11#2 := by cases st <;> decide

theorem bitAsByte_eq (o : Bool) : bitAsByte o = if o then 0x01#8 else 0x00#8 := by cases o <;> decide

/-! ### The commands on a loaded core -/

section
variable {s : State} (hl : s.loaded = true)
include hl

theorem exec_step_of_loaded : exec .step s =
    .next { s with
      state := nextState s.taps s.state
      rsp := some ⟨.ok, if s.state.getLsbD 0 then 0x01#8 else 0x00#8⟩ } := by
  rw [exec, execStep, whenLoaded_loaded hl, bitAsByte_eq]
  rfl

theorem exec_nextb_of_loaded : exec .nextb s =
    .next { s with
      state := advance s.taps 8 s.state
      rsp := some ⟨.ok, keystreamByte s.taps s.state 0⟩ } := by
  rw [exec, execNextb, whenLoaded_loaded hl, nextByte_fst, nextByte_snd]
  rfl

theorem exec_xorb_of_loaded (data : Byte) : exec (.xorb data) s =
    .next { s with
      state := advance s.taps 8 s.state
      rsp := some ⟨.ok, data ^^^ keystreamByte s.taps s.state 0⟩ } := by
  rw [exec, execXorb, whenLoaded_loaded hl, nextByte_fst, nextByte_snd]
  rfl

end

/-! ### XORB issued by the host, alone and as a pass of APPLY -/

/-- A loaded core and its host after an issued XORB (43_stream_transform.md R62). -/
def afterXorb (data : Byte) (s : State) : State :=
  { s with
    state := advance s.taps 8 s.state
    rsp := some ⟨.ok, data ^^^ keystreamByte s.taps s.state 0⟩
    received := s.received ++ [⟨.ok, data ^^^ keystreamByte s.taps s.state 0⟩] }

theorem issue_xorb_of_loaded {s : State} (hl : s.loaded = true) (data : Byte) :
    issue (encode (.xorb data)) s = .next (afterXorb data s) := by
  rw [issue, accept_command (decode_encode_xorb data), exec_xorb_of_loaded hl]
  rfl

theorem step_xorb_of_loaded {s : State} {data : Byte} {rest : List HostAction} (hl : s.loaded = true)
    (hag : s.agenda = .command (encode (.xorb data)) :: rest) : step s = .next (afterXorb data { s with agenda := rest }) :=
  (step_of_command hag).trans (issue_xorb_of_loaded (s := { s with agenda := rest }) hl data)

/-- A loaded core and its host after one pass of APPLY: the XORB, its byte written back, `n` bytes to go at the next address
(43_stream_transform.md R64). -/
def afterApplyByte (base n : Nat) (p : Byte) (s : State) : State :=
  { afterXorb p s with
    agenda := .apply (base + 1) n :: s.agenda
    mem := memWrite s.mem base (p ^^^ keystreamByte s.taps s.state 0) }

theorem act_apply_of_loaded {s : State} {base : Nat} {p : Byte} (n : Nat) (hl : s.loaded = true)
    (hp : memRead s.mem base = some p) : act (.apply base (n + 1)) s = .next (afterApplyByte base n p s) := by
  simp only [act, applyByte, hp, issue_xorb_of_loaded hl, onNext_next]
  rfl

theorem step_apply_of_loaded {s : State} {base n : Nat} {p : Byte} {rest : List HostAction} (hl : s.loaded = true)
    (hag : s.agenda = .apply base (n + 1) :: rest) (hp : memRead s.mem base = some p) :
    step s = .next (afterApplyByte base n p { s with agenda := rest }) :=
  (step_of_agenda_cons hag).trans (act_apply_of_loaded n hl hp)

/-- The loop's exit (log 6). -/
theorem step_apply_zero {s : State} {base : Nat} {rest : List HostAction} (hag : s.agenda = .apply base 0 :: rest) :
    step s = .next (quiet { s with agenda := rest }) := step_of_agenda_cons hag

/-! ### APPLY beside its expansion -/

/-- The same Register, and a host that has taken the same responses. -/
structure SameRegisterAndReceived (s u : State) : Prop where
  state : s.state = u.state
  taps : s.taps = u.taps
  loaded : s.loaded = u.loaded
  received : s.received = u.received

theorem sameRegisterAndReceived_afterXorb {s u : State} (h : SameRegisterAndReceived s u) (data : Byte) :
    SameRegisterAndReceived (afterXorb data s) (afterXorb data u) := by
  obtain ⟨hst, htp, hl, hrec⟩ := h
  exact ⟨by simp only [afterXorb, hst, htp], htp, hl, by simp only [afterXorb, hst, htp, hrec]⟩

/-- The host's memory holds the bytes from `base` on. -/
def HoldsBytes (m : Memory) (base : Nat) (bytes : List Byte) : Prop :=
  ∀ i, ∀ h : i < bytes.length, memRead m (base + i) = some bytes[i]

/-- A write at the first byte of a buffer leaves the bytes after it. -/
theorem holdsBytes_tail_memWrite {m : Memory} {base : Nat} {p : Byte} {bytes : List Byte} (h : HoldsBytes m base (p :: bytes))
    (c : Byte) : HoldsBytes (memWrite m base c) (base + 1) bytes := by
  intro i hi
  rw [memRead_memWrite_other m base _ c (by omega), show base + 1 + i = base + (i + 1) by omega]
  exact h (i + 1) (Nat.succ_lt_succ hi)

/-- 30_encoding.md R39, from any two machines alike in Register and record: pass by pass, APPLY issues the XORB that its expansion
has next. -/
theorem runSteps_apply_sameAs_expandApply (bytes : List Byte) {s u : State} {base : Nat}
    (hs : s.agenda = [.apply base bytes.length]) (hu : u.agenda = expandApply bytes) (h : SameRegisterAndReceived s u)
    (hl : s.loaded = true) (hm : HoldsBytes s.mem base bytes) :
    ∃ s' u', runSteps (bytes.length + 1) s = .next s' ∧ runSteps bytes.length u = .next u' ∧ SameRegisterAndReceived s' u' := by
  induction bytes generalizing s u base with
  | nil => exact ⟨_, u, runSteps_succ 0 (step_apply_zero hs), rfl, h.state, h.taps, h.loaded, h.received⟩
  | cons p bytes ih =>
    have hstepS := step_apply_of_loaded hl hs (hm 0 (Nat.succ_pos _))
    have hstepU := step_xorb_of_loaded (h.loaded ▸ hl) hu
    obtain ⟨hst, htp, hld, hrec⟩ := sameRegisterAndReceived_afterXorb h p
    obtain ⟨s', u', hs', hu', h'⟩ := ih (s := afterApplyByte base bytes.length p { s with agenda := [] })
      (u := afterXorb p { u with agenda := expandApply bytes }) rfl rfl ⟨hst, htp, hld, hrec⟩ hl (holdsBytes_tail_memWrite hm _)
    exact ⟨s', u', (runSteps_succ _ hstepS).trans hs', (runSteps_succ _ hstepU).trans hu', h'⟩

end Sys2Proof.Machine
end

section
/-! SUPPORT. The statements about the encoding (30_encoding.md), settled. -/
namespace Sys2Proof.Proofs
open Sys2Proof.Machine

/-- Settles O1: the decoder by opcode, and the words that are the encoding of what they decode to. -/
theorem decodeTotalAndRoundTrip : Obligations.DecodeTotalAndRoundTrip := by
  refine ⟨fun w => ?_, encode_init_eq_append, by decide, by decide, encode_xorb_eq_append, decode_encode,
    exists_command_encode_eq_iff_canonical, 0x200000000#35, 0x2DEADBEEF#35, by decide, by decide⟩
  rcases opcode_cases (opField w) with hop | hop | hop | hop | hop
  · rw [show w.extractLsb' 32 3 = opInit from hop]
    exact decode_of_opInit hop
  · rw [show w.extractLsb' 32 3 = opStep from hop]
    exact decode_of_opStep hop
  · rw [show w.extractLsb' 32 3 = opNextb from hop]
    exact decode_of_opNextb hop
  · rw [show w.extractLsb' 32 3 = opXorb from hop]
    exact decode_of_opXorb hop
  · rw [decode_of_reserved hop, opField]
    simp only [List.mem_cons, List.not_mem_nil, or_false] at hop
    rcases hop with hop | hop | hop | hop <;> rw [show w.extractLsb' 32 3 = _ from hop] <;> rfl

/-- Settles O3: words that decode alike behave alike; an INIT word is the encoding of what it decodes to. -/
theorem ignoredBitsNeverMatter : Obligations.IgnoredBitsNeverMatter := by
  intro w v hop
  change opField w = opField v at hop
  refine ⟨fun hw => ?_, fun hw => ?_, fun hw hdata => ?_, fun hw => ⟨fun hd => ?_, congrArg decode⟩⟩
  · have hdw := decode_of_opStep hw
    exact ⟨hdw, accept_congr (hdw.trans (decode_of_opStep (hop ▸ hw)).symm)⟩
  · have hdw := decode_of_opNextb hw
    exact ⟨hdw, accept_congr (hdw.trans (decode_of_opNextb (hop ▸ hw)).symm)⟩
  · have hdw : decode w = .command (.xorb (dataField v)) := by
      rw [decode_of_opXorb hw]
      exact congrArg (fun d => Decoded.command (.xorb d)) hdata
    exact ⟨hdw, accept_congr (hdw.trans (decode_of_opXorb (hop ▸ hw)).symm)⟩
  · rw [decode_of_opInit hw, decode_of_opInit (hop ▸ hw)] at hd
    rw [← encode_of_opInit hw, Decoded.command.inj hd, encode_of_opInit (hop ▸ hw)]

/-- Settles O32, by induction on the bytes: each pass of APPLY issues the XORB that the expansion has next. -/
theorem applyIsItsExpansion : Obligations.ApplyIsItsExpansion := by
  intro bytes s base hl hm
  obtain ⟨t, u, ht, hu, hst, htp, hld, hrec⟩ :=
    runSteps_apply_sameAs_expandApply bytes (s := { s with agenda := [.apply base bytes.length] })
      (u := { s with agenda := expandApply bytes }) rfl rfl ⟨rfl, rfl, rfl, rfl⟩ hl hm
  exact ⟨t, u, ht, hu, hst, htp, hld, hrec⟩

/-- Settles O4: a reserved opcode decodes to Illegal, and accepting it only raises IllegalCommand. -/
theorem reservedOpcodesChangeNothing : Obligations.ReservedOpcodesChangeNothing := by
  intro w s hop
  have hd := decode_of_reserved hop
  exact ⟨hd, accept_illegal hd s, by decide⟩

/-- Settles O5: the word is status and data side by side; the rest is what each command answers. -/
theorem responseWord : Obligations.ResponseWord := by
  refine ⟨⟨rfl, rfl, rfl⟩, fun r => ?_, fun w s => ?_, fun w s hop => ?_, fun s hl => ?_, fun seed taps s => ?_, fun s hl => ?_⟩
  · rw [r.word_eq_append, BitVec.extractLsb'_append_eq_left, BitVec.extractLsb'_append_eq_right]
    exact ⟨rfl, rfl, r.st.code_ne_three⟩
  · obtain ⟨t, r, ht, -, -, -, hr, hsound⟩ := accept_answers w s
    exact ⟨t, r, ht, hr, hsound⟩
  · exact accept_illegal (decode_of_reserved hop) s
  · exact ⟨exec_of_not_loaded hl (by simp), exec_of_not_loaded hl (by simp), fun data => exec_of_not_loaded hl (by simp)⟩
  · exact ⟨_, rfl, rfl⟩
  · exact ⟨⟨_, exec_step_of_loaded hl, rfl⟩, ⟨_, exec_nextb_of_loaded hl, rfl⟩, fun data => ⟨_, exec_xorb_of_loaded hl data, rfl⟩⟩

end Sys2Proof.Proofs
end

section
/-! SUPPORT. Rules for the proofs of the statements about INIT (40_init.md): what INIT answers, the coercion of its seed, and the
step under the all-zero mask and under a mask without bit 0. -/
namespace Sys2Proof.Machine

/-! ### INIT and the coercion of its seed -/

/-- Everything INIT does (40_init.md R40): what it writes does not depend on the old Register. -/
theorem exec_init (seed taps : Word) (s : State) : exec (.init seed taps) s =
    .next { s with
      state := coerceSeed seed
      taps := taps
      loaded := true
      rsp := some ⟨.ok, 0x00#8⟩ } := rfl

@[simp] theorem coerceSeed_zero : coerceSeed 0x0000#16 = 0x0001#16 := rfl

theorem coerceSeed_of_ne_zero {seed : Word} (h : seed ≠ 0x0000#16) : coerceSeed seed = seed := if_neg h

/-- The coercion as the pseudocode of 40_init.md R40 writes it. -/
theorem coerceSeed_eq_ite_ne (seed : Word) : coerceSeed seed = if seed ≠ 0x0000#16 then seed else 0x0001#16 :=
  (ite_not ..).symm

/-! ### The all-zero mask -/

theorem feedback_zero_mask (st : Word) : feedback 0x0000#16 st = false := by
  rw [feedback, BitVec.and_zero]
  rfl

/-- With no bit tapped a step only shifts. -/
theorem nextState_zero_mask (st : Word) : nextState 0x0000#16 st = st >>> 1 := by
  refine BitVec.eq_of_getLsbD_eq fun i _ => ?_
  rw [nextState_getLsbD, BitVec.getLsbD_ushiftRight, feedback_zero_mask, Nat.add_comm 1 i]
  split
  · next hi => exact (BitVec.getLsbD_of_ge st (i + 1) (by omega)).symm
  · rfl

theorem advance_zero_mask (n : Nat) (st : Word) : advance 0x0000#16 n st = st >>> n := by
  induction n with
  | zero => rfl
  | succ n ih => rw [advance_succ, ih, nextState_zero_mask, BitVec.shiftRight_add]

/-! ### A mask without bit 0 -/

/-- With bit 0 untapped the feedback does not see bit 0 of STATE (41_step.md R45, R46). -/
theorem feedback_congr_of_untapped {taps st st' : Word} (htap : taps.getLsbD 0 = false)
    (hup : ∀ i, st.getLsbD (i + 1) = st'.getLsbD (i + 1)) : feedback taps st = feedback taps st' := by
  have hbit (i : Nat) : (st &&& taps).getLsbD i = (st' &&& taps).getLsbD i := by
    cases i with
    | zero => simp only [BitVec.getLsbD_and, htap, Bool.and_false]
    | succ i => simp only [BitVec.getLsbD_and, hup]
  rw [feedback, feedback, BitVec.eq_of_getLsbD_eq fun i _ => hbit i]

/-- With bit 0 untapped two states that differ in bit 0 alone step to one (41_step.md R52). -/
theorem nextState_congr_of_untapped {taps st st' : Word} (htap : taps.getLsbD 0 = false)
    (hup : ∀ i, st.getLsbD (i + 1) = st'.getLsbD (i + 1)) : nextState taps st = nextState taps st' := by
  refine BitVec.eq_of_getLsbD_eq fun i _ => ?_
  rw [nextState_getLsbD, nextState_getLsbD, feedback_congr_of_untapped htap hup, hup]

theorem nextState_zero_state (taps : Word) : nextState taps 0x0000#16 = 0x0000#16 := advance_zero_state taps 1

theorem nextState_one_eq_zero_of_untapped {taps : Word} (htap : taps.getLsbD 0 = false) :
    nextState taps 0x0001#16 = 0x0000#16 := by
  rw [← nextState_zero_state taps]
  exact nextState_congr_of_untapped htap fun i => by simp

end Sys2Proof.Machine
end

section
/-! SUPPORT. The statements about INIT (40_init.md), settled. -/
namespace Sys2Proof.Proofs
open Sys2Proof.Machine

/-- Settles O9: INIT looks at no bit of its mask; under mask 0 sixteen steps shift all of STATE out, and a step under a mask without
bit 0 takes 0x0000 and 0x0001 to 0x0000. -/
theorem tapMaskStoredVerbatim : Obligations.TapMaskStoredVerbatim := by
  refine ⟨fun seed taps s => ?_, fun st => ⟨feedback_zero_mask st, ?_⟩, fun taps htap => ?_, fun s => ?_⟩
  · exact ⟨_, exec_init seed taps s, rfl, rfl⟩
  · rw [advance_zero_mask]
    exact BitVec.ushiftRight_eq_zero (Nat.le_refl 16)
  · have hone := nextState_one_eq_zero_of_untapped htap
    exact ⟨⟨0x0000#16, 0x0001#16, by decide, (nextState_zero_state taps).trans hone.symm⟩, hone⟩
  · exact ⟨_, exec_init 0x1234#16 0x0000#16 s, coerceSeed_of_ne_zero (seed := 0x1234#16) (by decide), rfl, rfl⟩

/-- Settles O7: what INIT answers, and its word as the encoding that decodes to it. -/
theorem initConstructsRegister : Obligations.InitConstructsRegister := by
  refine ⟨fun seed taps s => ?_, fun seed taps => ?_, by decide⟩
  · rw [exec_init, coerceSeed_eq_ite_ne]
  · exact (congrArg decode (encode_init_eq_append seed taps).symm).trans (decode_encode (.init seed taps))

/-- Settles O8: seeds 0 and 1 are coerced to the same STATE, which is all that INIT makes of its seed. -/
theorem zeroSeedCoercion : Obligations.ZeroSeedCoercion := by
  refine ⟨fun taps s => ?_, fun seed taps s => ⟨_, exec_init seed taps s, coerceSeed_ne_zero seed, coerceSeed_of_ne_zero, ?_, rfl⟩⟩
  · rw [exec_init, exec_init, coerceSeed_zero, coerceSeed_of_ne_zero (by decide)]
  · rintro rfl
    exact coerceSeed_zero

/-- Settles O10: what INIT writes does not depend on the old Register, and every other command keeps TAPS. -/
theorem reInitOverwritesRegister : Obligations.ReInitOverwritesRegister := by
  refine ⟨fun seed taps s => ⟨_, exec_init seed taps s, rfl, rfl, fun st tp l => exec_init seed taps _⟩, fun i s hi => ?_⟩
  obtain ⟨t, -, ht, -⟩ := exec_answers i s
  rcases exec_register ht with ⟨seed, taps, hinit, -⟩ | ⟨htaps, -⟩
  · exact absurd hinit (hi seed taps)
  · exact ⟨t, ht, htaps⟩

/-- Settles O11: the STATE that INIT leaves is the coerced seed, and STEP on that loaded core responds with bit 0 of it. -/
theorem initTakesNoStep : Obligations.InitTakesNoStep := fun seed taps s =>
  ⟨_, _, exec_init seed taps s, rfl, exec_step_of_loaded rfl, rfl⟩

end Sys2Proof.Proofs
end

section
/-! SUPPORT. Rules for the proofs of the statements about the step (41_step.md): parity as a fold, the states that step to one, the
outputs as bits of STATE, the all-zero state, and machines alike in the Register and the port actions to come. -/
namespace Sys2Proof.Machine

/-! ### Parity and feedback -/

/-- The XOR of a family of bits is 1 exactly when an odd number of them is set; `b` is what the fold starts from. -/
theorem foldl_xor_eq_true_iff {α : Type} (p : α → Bool) (l : List α) (b : Bool) :
    (l.map p).foldl Bool.xor b = true ↔ (l.countP p + b.toNat) % 2 = 1 := by
  induction l generalizing b with
  | nil => cases b <;> simp
  | cons a l ih =>
    rw [List.map_cons, List.foldl_cons, ih, List.countP_cons]
    cases p a with
    | false => simp
    | true => cases b <;> simp [Nat.add_assoc]

/-- The model writes bit 15 first, the fold takes bit 0 first (41_step.md R45). -/
theorem parity16_eq_foldl (v : Word) : parity16 v = ((List.range 16).map (fun i => v.getLsbD i)).foldl Bool.xor false := by
  have hcomm : RightCommutative Bool.xor := ⟨Bool.xor_right_comm⟩
  calc parity16 v = ((List.range 16).reverse.map (fun i => v.getLsbD i)).foldl Bool.xor false := by
        simp [parity16, List.range, List.range.loop]
    _ = _ := ((List.reverse_perm (List.range 16)).map _).foldl_eq false

theorem parity16_eq_true_iff (v : Word) : parity16 v = true ↔ setBits v % 2 = 1 := by
  rw [parity16_eq_foldl]
  exact foldl_xor_eq_true_iff (fun i => v.getLsbD i) (List.range 16) false

theorem feedback_eq_foldl (taps st : Word) :
    feedback taps st = ((List.range 16).map (fun i => taps.getLsbD i && st.getLsbD i)).foldl Bool.xor false := by
  simp only [feedback, parity16_eq_foldl, BitVec.getLsbD_and, Bool.and_comm]

/-- The source's own mask taps bits 15, 13, 12 and 10. -/
theorem feedback_0xB400 (st : Word) :
    feedback 0xB400#16 st = (st.getLsbD 15 ^^ st.getLsbD 13 ^^ st.getLsbD 12 ^^ st.getLsbD 10) := by
  simp [feedback, parity16]

theorem feedback_zero_state (taps : Word) : feedback taps 0x0000#16 = false := by
  rw [feedback, BitVec.zero_and]
  rfl

/-- Bit 0 of STATE enters the feedback exactly through bit 0 of the mask. -/
theorem feedback_xor_one (taps st : Word) : feedback taps (st ^^^ 0x0001#16) = (feedback taps st ^^ taps.getLsbD 0) := by
  have hlow : (!st.getLsbD 0 && taps.getLsbD 0) = ((st.getLsbD 0 && taps.getLsbD 0) ^^ taps.getLsbD 0) := by
    cases st.getLsbD 0 <;> simp
  simpa [feedback, parity16] using hlow

/-- So a flip of bit 0 keeps the feedback exactly under a mask that does not tap it. -/
theorem feedback_eq_feedback_xor_one_iff (taps st : Word) :
    feedback taps st = feedback taps (st ^^^ 0x0001#16) ↔ taps.getLsbD 0 = false := by
  rw [feedback_xor_one]
  cases feedback taps st <;> simp

/-! ### The states that step to one state -/

theorem upper_bits_eq_iff (st st' : Word) :
    (∀ i, st.getLsbD (i + 1) = st'.getLsbD (i + 1)) ↔ (st' = st ∨ st' = st ^^^ 0x0001#16) := by
  refine ⟨fun hup => ?_, ?_⟩
  · by_cases hlow : st'.getLsbD 0 = st.getLsbD 0
    · refine .inl (BitVec.eq_of_getLsbD_eq fun i _ => ?_)
      cases i with
      | zero => exact hlow
      | succ i => exact (hup i).symm
    · refine .inr (BitVec.eq_of_getLsbD_eq fun i _ => ?_)
      cases i with
      | zero => simpa using Bool.eq_not.2 hlow
      | succ i => simp [hup i]
  · rintro (rfl | rfl) i
    · rfl
    · simp

/-- The new STATE is the feedback over the bits of the old one above bit 0 (41_step.md R46). -/
theorem nextState_eq_nextState_iff (taps taps' st st' : Word) :
    nextState taps st = nextState taps' st' ↔
      feedback taps st = feedback taps' st' ∧ (st' = st ∨ st' = st ^^^ 0x0001#16) := by
  rw [← upper_bits_eq_iff]
  refine ⟨fun h => ?_, fun ⟨hfb, hup⟩ => BitVec.eq_of_getLsbD_eq fun i _ => ?_⟩
  · have hbit (i : Nat) : (nextState taps st).getLsbD i = (nextState taps' st').getLsbD i := by rw [h]
    simp only [nextState_getLsbD] at hbit
    refine ⟨by simpa using hbit 15, fun i => ?_⟩
    by_cases hi : i = 15
    · rw [BitVec.getLsbD_of_ge st _ (by omega), BitVec.getLsbD_of_ge st' _ (by omega)]
    · simpa [hi] using hbit i
  · rw [nextState_getLsbD, nextState_getLsbD, hfb, hup]

/-- Under one mask two states step to one exactly when they are equal, or differ in an untapped bit 0 alone (41_step.md R52). -/
theorem nextState_same_mask_eq_iff (taps st st' : Word) :
    nextState taps st = nextState taps st' ↔ (st' = st ∨ (st' = st ^^^ 0x0001#16 ∧ taps.getLsbD 0 = false)) := by
  rw [nextState_eq_nextState_iff]
  constructor
  · rintro ⟨hfb, rfl | rfl⟩
    · exact .inl rfl
    · exact .inr ⟨rfl, (feedback_eq_feedback_xor_one_iff taps st).1 hfb⟩
  · rintro (rfl | ⟨rfl, htap⟩)
    · exact ⟨rfl, .inl rfl⟩
    · exact ⟨(feedback_eq_feedback_xor_one_iff taps st).2 htap, .inr rfl⟩

/-- 41_step.md R52: injective exactly when bit 0 is tapped. -/
theorem nextState_injective_iff (taps : Word) : Function.Injective (nextState taps) ↔ taps.getLsbD 0 = true := by
  refine ⟨fun hinj => ?_, fun htap st st' h => ?_⟩
  · by_contra htap
    have hone := nextState_one_eq_zero_of_untapped (Bool.eq_false_iff.2 htap)
    exact absurd (hinj (hone.trans (nextState_zero_state taps).symm)) (by decide)
  · rcases (nextState_same_mask_eq_iff taps st st').1 h with heq | ⟨-, hfalse⟩
    · exact heq.symm
    · exact absurd (htap.symm.trans hfalse) (by decide)

theorem advance_eq_iterate (taps : Word) (n : Nat) (st : Word) : advance taps n st = (nextState taps)^[n] st := by
  induction n generalizing st with
  | zero => rfl
  | succ n ih => exact ih (nextState taps st)

/-! ### The outputs as bits of STATE -/

theorem outputAt_of_lt_sixteen (taps st : Word) {t : Nat} (ht : t < 16) : outputAt taps st t = st.getLsbD t :=
  advance_getLsbD taps st t 0 ht

/-- The bit that a step feeds in is the output of the step sixteen later (41_step.md R53). -/
theorem outputAt_sixteen (taps st : Word) : outputAt taps st 16 = feedback taps st := by
  calc outputAt taps st 16 = outputAt taps (nextState taps st) 15 := rfl
    _ = (nextState taps st).getLsbD 15 := outputAt_of_lt_sixteen taps _ (by decide)
    _ = feedback taps st := nextState_getLsbD taps st 15

theorem outputAt_add_sixteen (taps st : Word) (t : Nat) : outputAt taps st (t + 16) = feedback taps (advance taps t st) := by
  rw [← outputAt_advance, outputAt_sixteen]

/-- STATE holds the next sixteen outputs (41_step.md R53). -/
theorem advance_getLsbD_eq_outputAt (taps st : Word) (t : Nat) {i : Nat} (hi : i < 16) :
    (advance taps t st).getLsbD i = outputAt taps st (t + i) := by
  rw [← outputAt_advance, outputAt_of_lt_sixteen taps _ hi]

/-! ### The all-zero state -/

theorem clock_of_zero_state {s : State} (hs : s.state = 0x0000#16) : clock s = (s, false) := by
  have hst : (clock s).1.state = s.state := by rw [clock_state, hs, nextState_zero_state]
  have hout : (clock s).2 = false := by
    rw [clock_output, hs]
    rfl
  exact Prod.ext (State.ext_fields hst rfl rfl rfl rfl rfl rfl) hout

theorem keystreamByte_zero_state (taps : Word) (m : Nat) : keystreamByte taps 0x0000#16 m = 0x00#8 := by
  have hout (t : Nat) : outputAt taps 0x0000#16 t = false := by
    rw [outputAt, advance_zero_state]
    rfl
  refine BitVec.eq_of_getLsbD_eq fun i hi => ?_
  simp [keystreamByte, hout, hi]

/-! ### Machines alike in the Register and the port actions to come -/

/-- The same STATE, TAPS and LOADED. -/
structure SameRegister (s s' : State) : Prop where
  state : s'.state = s.state
  taps : s'.taps = s.taps
  loaded : s'.loaded = s.loaded

/-- From `s` and from `s'` the host took the same responses on the way to `t` and to `t'`. -/
def SameResponses (s s' t t' : State) : Prop := ∃ rs, t.received = s.received ++ rs ∧ t'.received = s'.received ++ rs

theorem sameResponses_of_received_eq {s s' t t' : State} (h : t.received = s.received) (h' : t'.received = s'.received) :
    SameResponses s s' t t' := ⟨[], by simpa using h, by simpa using h'⟩

theorem SameResponses.trans {s s' t t' u u' : State} (h₁ : SameResponses s s' t t') (h₂ : SameResponses t t' u u') :
    SameResponses s s' u u' := by
  obtain ⟨rs, ht, ht'⟩ := h₁
  obtain ⟨qs, hu, hu'⟩ := h₂
  exact ⟨rs ++ qs, by rw [hu, ht, List.append_assoc], by rw [hu', ht', List.append_assoc]⟩

/-- The core of `s` beside the host of `u`. -/
def State.withHostOf (s u : State) : State := { s with agenda := u.agenda, received := u.received, mem := u.mem }

theorem whenLoaded_respond_withHostOf (s effect u : State) (d : Byte) :
    whenLoaded (s.withHostOf u) (respond .ok d (effect.withHostOf u)) = (whenLoaded s (respond .ok d effect)).withHostOf u := by
  cases hl : s.loaded with
  | false =>
    rw [whenLoaded_not_loaded hl]
    exact whenLoaded_not_loaded hl
  | true =>
    rw [whenLoaded_loaded hl]
    exact whenLoaded_loaded hl

theorem nextByte_withHostOf (s u : State) : nextByte (s.withHostOf u) = ((nextByte s).1.withHostOf u, (nextByte s).2) := by
  refine Prod.ext ?_ ?_
  · rw [nextByte_fst, nextByte_fst]
    rfl
  · rw [nextByte_snd, nextByte_snd]
    rfl

/-- A command neither reads nor writes the host's data (41_step.md R55). -/
theorem exec_withHostOf {i : Instr} {s t : State} (h : exec i s = .next t) (u : State) :
    exec i (s.withHostOf u) = .next (t.withHostOf u) := by
  cases i with
  | init seed taps =>
    cases h
    rfl
  | step =>
    cases h
    exact congrArg _ (whenLoaded_respond_withHostOf s (clock s).1 u (bitAsByte (clock s).2))
  | nextb =>
    cases h
    rw [exec, execNextb, nextByte_withHostOf]
    exact congrArg _ (whenLoaded_respond_withHostOf s _ u _)
  | xorb data =>
    cases h
    rw [exec, execXorb, nextByte_withHostOf]
    exact congrArg _ (whenLoaded_respond_withHostOf s _ u _)

/-- As `exec_withHostOf`, for any word. -/
theorem accept_withHostOf {w : CmdWord} {s t : State} (h : accept w s = .next t) (u : State) :
    accept w (s.withHostOf u) = .next (t.withHostOf u) := by
  rcases accept_cases w s with ⟨i, hd, ha⟩ | ⟨op, hd, ha⟩
  · rw [accept_command hd]
    exact exec_withHostOf (ha ▸ h) u
  · cases ha.symm.trans h
    exact accept_illegal hd _

/-- From equal registers a word leaves equal registers and the same response. -/
theorem accept_of_sameRegister {w : CmdWord} {s s' t : State} (h : SameRegister s s') (ht : accept w s = .next t) :
    accept w s' = .next (t.withHostOf s') := by
  have hs : s' = { s.withHostOf s' with rsp := s'.rsp } :=
    State.ext_fields h.state h.taps h.loaded rfl rfl rfl rfl
  rw [hs, accept_ignores_port, ← hs]
  exact accept_withHostOf ht s'

/-- Two machines `s`, `s'` that answer `t`, `t'`: alike in the Register and in the responses added, each with its agenda left. -/
structure AnswersAlike (s s' t t' : State) : Prop where
  register : SameRegister t t'
  responses : SameResponses s s' t t'
  agenda : t.agenda = s.agenda
  agenda' : t'.agenda = s'.agenda

theorem issue_answersAlike (w : CmdWord) {s s' : State} (h : SameRegister s s') :
    ∃ t t', issue w s = .next t ∧ issue w s' = .next t' ∧ AnswersAlike s s' t t' := by
  obtain ⟨t, r, ha, hi, hag, hrec, -, hr, -⟩ := issue_answers w s
  have ha' := accept_of_sameRegister h ha
  refine ⟨_, hostTakes (t.withHostOf s'), hi, by rw [issue, ha', onNext_next], ?_⟩
  exact {
    register := ⟨by simp [State.withHostOf], by simp [State.withHostOf], by simp [State.withHostOf]⟩
    responses := ⟨[r], by simp [hrec, hr], by simp [State.withHostOf, hr]⟩
    agenda := by simpa using hag
    agenda' := by simp [State.withHostOf] }

theorem act_answersAlike {a : HostAction} (ha : a.isPort = true) {s s' : State} (h : SameRegister s s') :
    ∃ t t', act a s = .next t ∧ act a s' = .next t' ∧ AnswersAlike s s' t t' := by
  have hquiet : AnswersAlike s s' (quiet s) (quiet s') :=
    ⟨⟨h.state, h.taps, h.loaded⟩, sameResponses_of_received_eq rfl rfl, rfl, rfl⟩
  have hreset : AnswersAlike s s' (resetCore s) (resetCore s') :=
    ⟨⟨rfl, rfl, rfl⟩, sameResponses_of_received_eq rfl rfl, rfl, rfl⟩
  cases a with
  | command w => exact issue_answersAlike w h
  | apply base n => cases ha
  | idle => exact ⟨_, _, rfl, rfl, hquiet⟩
  | reset offered => exact ⟨_, _, rfl, rfl, hreset⟩
  | abandon w => exact ⟨_, _, rfl, rfl, hreset⟩

/-- The same Register, and the same actions to come, all of them at the port. -/
structure SameCommands (s s' : State) : Prop where
  register : SameRegister s s'
  agenda : s'.agenda = s.agenda
  port : ∀ a ∈ s.agenda, a.isPort = true

theorem step_sameCommands {s s' : State} (h : SameCommands s s') :
    ∃ t t', step s = .next t ∧ step s' = .next t' ∧ SameCommands t t' ∧ SameResponses s s' t t' := by
  obtain ⟨⟨hst, htp, hl⟩, hag, hport⟩ := h
  cases hs : s.agenda with
  | nil =>
    exact ⟨_, _, step_of_agenda_nil hs, step_of_agenda_nil (hag.trans hs), ⟨⟨hst, htp, hl⟩, hag, hport⟩,
      sameResponses_of_received_eq rfl rfl⟩
  | cons a rest =>
    rw [hs] at hport
    obtain ⟨ha, hrest⟩ := List.forall_mem_cons.1 hport
    obtain ⟨t, t', ht, ht', hreg, hrsp, htag, htag'⟩ :=
      act_answersAlike ha (s := { s with agenda := rest }) (s' := { s' with agenda := rest }) ⟨hst, htp, hl⟩
    refine ⟨t, t', (step_of_agenda_cons hs).trans ht, (step_of_agenda_cons (hag.trans hs)).trans ht',
      ⟨hreg, htag'.trans htag.symm, ?_⟩, hrsp⟩
    rw [htag]
    exact hrest

theorem runSteps_sameCommands (k : Nat) {s s' : State} (h : SameCommands s s') :
    ∃ t t', runSteps k s = .next t ∧ runSteps k s' = .next t' ∧ SameCommands t t' ∧ SameResponses s s' t t' := by
  induction k generalizing s s' with
  | zero => exact ⟨s, s', rfl, rfl, h, sameResponses_of_received_eq rfl rfl⟩
  | succ k ih =>
    obtain ⟨u, u', hu, hu', hcmd, hrsp⟩ := step_sameCommands h
    obtain ⟨t, t', ht, ht', hcmd', hrsp'⟩ := ih hcmd
    exact ⟨t, t', (runSteps_succ k hu).trans ht, (runSteps_succ k hu').trans ht', hcmd', hrsp.trans hrsp'⟩

end Sys2Proof.Machine
end

section
/-! SUPPORT. The statements about the step (41_step.md), settled. -/
namespace Sys2Proof.Proofs
open Sys2Proof.Machine

/-- Settles O49: no command reads the host's data, so every transition keeps the two machines alike; by induction on the run. -/
theorem responsesDependOnCommandsOnly : Obligations.ResponsesDependOnCommandsOnly := by
  intro k s s' hst htp hl hag hport
  obtain ⟨t, t', ht, ht', ⟨hreg, -, -⟩, rs, hrs, hrs'⟩ := runSteps_sameCommands k ⟨⟨hst, htp, hl⟩, hag, hport⟩
  exact ⟨t, t', rs, ht, ht', hreg.state, hreg.taps, hreg.loaded, hrs, hrs'⟩

/-- Settles O12: parity as a fold over the bits, and the fold as a count. -/
theorem parityCountsSetBits : Obligations.ParityCountsSetBits := by
  refine ⟨parity16_eq_foldl, parity16_eq_true_iff, ?_⟩
  decide

/-- Settles O13: the bits of the new STATE, the bit a step feeds in as an output, and the states that step to one. -/
theorem stepArithmetic : Obligations.StepArithmetic := by
  refine ⟨fun s => ⟨rfl, rfl⟩, fun s => ⟨fun i hi => ?_, nextState_getLsbD s.taps s.state 15⟩, fun taps st htap => ?_, by decide,
    fun st => ?_, outputAt_add_sixteen, by decide⟩
  · rw [clock_state, nextState_getLsbD, if_neg (by omega)]
  · exact ((nextState_same_mask_eq_iff taps st _).2 (.inr ⟨rfl, htap⟩)).symm
  · rw [BitVec.getLsbD_ushiftRight, BitVec.getLsbD_of_ge st _ (by decide)]

/-- Settles O16: 0x0000 is the successor of 0x0000, and 0x0001 is that of 0x0002 under the empty mask; the states that step to one. -/
theorem collapseOnlyFromOne : Obligations.CollapseOnlyFromOne := by
  refine ⟨fun taps st => ?_, fun taps st _ => ?_, fun seed s hseed => ?_⟩
  · have h := nextState_same_mask_eq_iff taps 0x0000#16 st
    rwa [nextState_zero_state, eq_comm, BitVec.zero_xor] at h
  · rw [eq_comm, show 0x0001#16 = nextState 0x0000#16 0x0002#16 by decide, nextState_eq_nextState_iff, feedback_zero_mask, eq_comm,
      and_comm]
    rfl
  · have hone : coerceSeed seed = 0x0001#16 := by rcases hseed with rfl | rfl <;> rfl
    have hnext : nextState 0xB400#16 (coerceSeed seed) = 0x0000#16 := by
      rw [hone]
      decide
    exact ⟨_, _, exec_init seed 0xB400#16 s, exec_step_of_loaded rfl, by simp [hone], hnext⟩

/-- Settles O17: on finitely many states a bijection is an injection; the states that step to one. -/
theorem stepBijectiveIffBitZeroTapped : Obligations.StepBijectiveIffBitZeroTapped := by
  refine ⟨fun taps => ?_, fun taps st st' htap => ⟨?_, ?_⟩⟩
  · rw [← Finite.injective_iff_bijective, nextState_injective_iff]
  · rw [nextState_same_mask_eq_iff, and_iff_left htap]
  · simp [outputBit]

/-- Settles O18: under an injection of a finite set every point is periodic, with a period no larger than the set. -/
theorem bitZeroTappedGivesCycles : Obligations.BitZeroTappedGivesCycles := by
  intro taps st htap
  have hmem := ((nextState_injective_iff taps).2 htap).mem_periodicPts st
  refine ⟨Function.minimalPeriod (nextState taps) st, Function.minimalPeriod_pos_of_mem_periodicPts hmem, ?_, ?_⟩
  · calc Function.minimalPeriod (nextState taps) st ≤ Fintype.card Word := Function.minimalPeriod_le_card
      _ = 65536 := FinEnum.card_eq_fintypeCard.symm
  · rw [advance_eq_iterate, Function.iterate_minimalPeriod]

/-- Settles O19: under mask 0 steps only shift, so sixteen of them reach the all-zero state, whose keystream is 0x00. -/
theorem emptyMaskShiftsOut : Obligations.EmptyMaskShiftsOut := by
  have hzero (st : Word) : advance 0x0000#16 16 st = 0x0000#16 := by
    rw [advance_zero_mask]
    exact BitVec.ushiftRight_eq_zero (Nat.le_refl 16)
  refine ⟨advance_zero_mask, hzero, by decide, by decide, fun m hm => ?_⟩
  obtain ⟨d, rfl⟩ := Nat.exists_eq_add_of_le hm
  rw [← keystreamByte_advance, hzero, keystreamByte_zero_state]

/-- Settles O20: the output sixteen steps on is the feedback, and the bits of STATE that it reads are the outputs up to there. -/
theorem outputRecurrence : Obligations.OutputRecurrence := by
  refine ⟨fun taps st t i hi => advance_getLsbD_eq_outputAt taps st t hi, fun taps st t => ?_, fun st t => ?_⟩
  · rw [outputAt_add_sixteen, feedback_eq_foldl]
    refine congrArg (List.foldl Bool.xor false) (List.map_congr_left fun i hi => ?_)
    rw [advance_getLsbD_eq_outputAt taps st t (List.mem_range.1 hi)]
  · rw [outputAt_add_sixteen, feedback_0xB400]
    simp only [advance_getLsbD_eq_outputAt, Nat.reduceLT]

/-- Settles O21: STATE holds the first sixteen outputs, and the seventeenth is the feedback of the first step. -/
theorem firstSixteenOutputs : Obligations.FirstSixteenOutputs := by
  refine ⟨fun taps st t ht => outputAt_of_lt_sixteen taps st ht, outputAt_sixteen, fun taps => ?_⟩
  have hbits : (List.range 16).map (outputAt taps 0xACE1#16) = (List.range 16).map (fun t => (0xACE1#16).getLsbD t) :=
    List.map_congr_left fun t ht => outputAt_of_lt_sixteen taps _ (List.mem_range.1 ht)
  rw [hbits]
  decide

/-- Settles O14: what STEP answers on a loaded core and on one that is not. -/
theorem stepCommand : Obligations.StepCommand :=
  ⟨fun _ hl => exec_step_of_loaded hl, fun _ hl => exec_of_not_loaded hl (by simp), by decide, by decide, by decide, by decide,
    by decide⟩

/-- Settles O15: from the all-zero state every number of steps leads back to it, and its keystream is 0x00. -/
theorem zeroStateIsFixedPoint : Obligations.ZeroStateIsFixedPoint := by
  intro s hl hs
  refine ⟨⟨?_, clock_of_zero_state hs⟩, ?_, ?_, fun data => ?_⟩
  · rw [hs, feedback_zero_state]
  · rw [exec_step_of_loaded hl, hs, nextState_zero_state, ← hs]
    simp [hs]
  · rw [exec_nextb_of_loaded hl, hs, advance_zero_state, keystreamByte_zero_state, ← hs]
  · rw [exec_xorb_of_loaded hl, hs, advance_zero_state, keystreamByte_zero_state, ← hs, BitVec.xor_zero]

end Sys2Proof.Proofs
end

section
/-! SUPPORT. Rules for the proofs of the statements about NextByte (42_next_byte.md): the serializer's loop unrolled, and the keystream byte
bit by bit and beside STATE. -/
namespace Sys2Proof.Machine

/-- The serializer's loop unrolled (42_next_byte.md R57): eight bits placed on an empty byte, first bit lowest. -/
theorem nextByte_snd_eq_or (s : State) : (nextByte s).2 =
    zextBit 8 (outputAt s.taps s.state 0) ||| (zextBit 8 (outputAt s.taps s.state 1) <<< 1)
      ||| (zextBit 8 (outputAt s.taps s.state 2) <<< 2) ||| (zextBit 8 (outputAt s.taps s.state 3) <<< 3)
      ||| (zextBit 8 (outputAt s.taps s.state 4) <<< 4) ||| (zextBit 8 (outputAt s.taps s.state 5) <<< 5)
      ||| (zextBit 8 (outputAt s.taps s.state 6) <<< 6) ||| (zextBit 8 (outputAt s.taps s.state 7) <<< 7) := by
  have hfirst (o : Bool) : zextBit 8 o = placeBit 0x00#8 0 o := by rw [placeBit, BitVec.shiftLeft_zero, BitVec.zero_or]
  rw [hfirst (outputAt s.taps s.state 0)]
  rfl

theorem keystreamByte_getLsbD (taps st : Word) (m : Nat) {i : Nat} (hi : i < 8) :
    (keystreamByte taps st m).getLsbD i = outputAt taps st (m + i) := by
  rw [keystreamByte, BitVec.getLsbD_ofFnLE, dif_pos hi]

/-- STATE holds the next sixteen outputs, so a byte that begins at most eight steps on is cut out of it (42_next_byte.md R61). -/
theorem keystreamByte_eq_extractLsb' (taps st : Word) {m : Nat} (hm : m ≤ 8) : keystreamByte taps st m = st.extractLsb' m 8 := by
  refine BitVec.eq_of_getLsbD_eq fun i hi => ?_
  rw [keystreamByte_getLsbD taps st m hi, outputAt_of_lt_sixteen taps st (by omega), BitVec.getLsbD_extractLsb', decide_eq_true hi,
    Bool.true_and]

/-- Wherever it begins, a keystream byte is the low byte of the STATE it begins at. -/
theorem keystreamByte_eq_low_byte_advance (taps st : Word) (m : Nat) :
    keystreamByte taps st m = (advance taps m st).extractLsb' 0 8 := by
  calc keystreamByte taps st m = keystreamByte taps (advance taps m st) 0 := (keystreamByte_advance taps st m 0).symm
    _ = (advance taps m st).extractLsb' 0 8 := keystreamByte_eq_extractLsb' _ _ (Nat.zero_le 8)

end Sys2Proof.Machine
end

section
/-! SUPPORT. The statements about NextByte and NEXTB (42_next_byte.md), settled. -/
namespace Sys2Proof.Proofs
open Sys2Proof.Machine

/-- Settles O22: the byte is the keystream byte at the register's position, and the serializer's loop unrolled. -/
theorem nextByteAssembly : Obligations.NextByteAssembly := by
  refine fun s => ⟨nextByte_fst s, fun i hi => ?_, nextByte_snd_eq_or s⟩
  rw [nextByte_snd, keystreamByte_getLsbD _ _ 0 hi, Nat.zero_add]

/-- Settles O24: what the commands answer at STATE reads on from position `m` of the outputs from `st`. -/
theorem byteBoundariesFollowCommands : Obligations.ByteBoundariesFollowCommands := by
  refine ⟨fun s st m hl hst => ?_, by decide⟩
  have hbyte : keystreamByte s.taps s.state 0 = keystreamByte s.taps st m := by rw [hst, keystreamByte_advance, Nat.add_zero]
  have hstate (n : Nat) : advance s.taps n s.state = advance s.taps (m + n) st := by rw [hst, advance_add]
  have hnextb := exec_nextb_of_loaded hl
  rw [hbyte, hstate] at hnextb
  refine ⟨_, keystreamByte s.taps st m, hnextb, rfl, rfl, fun i hi => keystreamByte_getLsbD s.taps st m hi, fun data => ?_, ?_⟩
  · exact ⟨_, exec_xorb_of_loaded hl data, by rw [hbyte], hstate 8⟩
  · exact ⟨_, exec_step_of_loaded hl, by rw [hst]; rfl, hstate 1⟩

/-- Settles O25: the second NEXTB reads on where the first one stopped, and both bytes are cut out of the STATE that INIT left;
the third is the low byte of STATE sixteen steps on. -/
theorem firstTwoBytesAreTheSeed : Obligations.FirstTwoBytesAreTheSeed := by
  refine ⟨fun seed taps s => ⟨_, _, _, exec_init seed taps s, exec_nextb_of_loaded rfl, exec_nextb_of_loaded rfl, rfl, ?_, ?_⟩,
    ?_, ?_⟩
  · rw [keystreamByte_eq_extractLsb' _ _ (Nat.zero_le 8)]
  · rw [keystreamByte_advance, keystreamByte_eq_extractLsb' _ _ (Nat.le_refl 8)]
  · rw [keystreamByte_eq_low_byte_advance]
    decide
  · rw [keystreamByte_eq_low_byte_advance]
    decide

/-- Settles O23: what NEXTB answers on a loaded core and on one that is not; the all-zero state and the all-zero mask. -/
theorem nextbCommand : Obligations.NextbCommand := by
  refine ⟨fun s hl => exec_nextb_of_loaded hl, fun s hl => exec_of_not_loaded hl (by simp), by decide, fun taps => ?_, by decide,
    fun st => ?_, by decide, by decide, by decide⟩
  · exact ⟨keystreamByte_zero_state taps 0, advance_zero_state taps 8⟩
  · exact ⟨keystreamByte_eq_extractLsb' 0x0000#16 st (Nat.zero_le 8), advance_zero_mask 8 st⟩

end Sys2Proof.Proofs
end

section
/-! SUPPORT. Rules for the proofs of the statements about the stream transform (43_stream_transform.md): runs in pieces, faulting commands,
INIT issued by the host, and APPLY as the passes of its loop. -/
namespace Sys2Proof.Machine

/-! ### Runs -/

/-- A run goes on where its first transitions lead. -/
theorem runSteps_add_of_next {m : Nat} {s t : State} (h : runSteps m s = .next t) (n : Nat) :
    runSteps (m + n) s = runSteps n t := by rw [runSteps_add, h, onNext_next]

theorem issue_ignores_port (w : CmdWord) (s : State) (r : Option Response) : issue w { s with rsp := r } = issue w s := by
  rw [issue, accept_ignores_port, issue]

/-- As `accept_ignores_port`, for any action of the host: each writes the port anew. -/
theorem act_ignores_port (a : HostAction) (s : State) (r : Option Response) : act a { s with rsp := r } = act a s := by
  cases a with
  | command w => exact issue_ignores_port w s r
  | apply base n =>
    cases n with
    | zero => rfl
    | succ n => simp only [act, applyByte, issue_ignores_port]
  | idle => rfl
  | reset offered => rfl
  | abandon w => rfl

theorem step_ignores_port (s : State) (r : Option Response) : step { s with rsp := r } = step s := by
  obtain ⟨state, taps, loaded, rsp, agenda, received, mem⟩ := s
  cases agenda with
  | nil => rfl
  | cons a rest => exact act_ignores_port a ⟨state, taps, loaded, rsp, rest, received, mem⟩ r

theorem runSteps_ignores_port (k : Nat) (s : State) (r : Option Response) :
    runSteps (k + 1) { s with rsp := r } = runSteps (k + 1) s := by rw [runSteps, step_ignores_port, runSteps]

/-! ### Commands that fault -/

/-- A command that begins with the LOADED check responds OK, or all it did was to raise NotLoaded. -/
theorem whenLoaded_respond_ok_or_raises (s effect : State) (d : Byte) :
    (∃ c, (whenLoaded s (respond .ok d effect)).rsp = some ⟨.ok, c⟩) ∨ whenLoaded s (respond .ok d effect) = raise .notLoaded s := by
  cases hl : s.loaded with
  | true => exact .inl ⟨d, by rw [whenLoaded_loaded hl, respond_rsp]⟩
  | false => exact .inr (whenLoaded_not_loaded hl)

/-- As `whenLoaded_respond_ok_or_raises`, for any command (60_exceptions.md R73, R74). -/
theorem exec_ok_or_raises {i : Instr} {s t : State} (h : exec i s = .next t) :
    (∃ c, t.rsp = some ⟨.ok, c⟩) ∨ t = raise .notLoaded s := by
  cases i with
  | init seed taps =>
    cases h
    exact .inl ⟨_, rfl⟩
  | step =>
    cases h
    exact whenLoaded_respond_ok_or_raises s _ _
  | nextb =>
    cases h
    exact whenLoaded_respond_ok_or_raises s _ _
  | xorb data =>
    cases h
    exact whenLoaded_respond_ok_or_raises s _ _

/-- A word whose response reports a fault did nothing but raise it (60_exceptions.md R74). -/
theorem accept_raises_of_not_ok {w : CmdWord} {s t : State} {r : Response} (h : accept w s = .next t) (hr : t.rsp = some r)
    (hst : r.st ≠ .ok) : ∃ f, t = raise f s := by
  rcases accept_cases w s with ⟨i, -, ha⟩ | ⟨op, -, ha⟩
  · rcases exec_ok_or_raises (ha ▸ h) with ⟨d, hd⟩ | ht
    · cases hd.symm.trans hr
      exact absurd rfl hst
    · exact ⟨_, ht⟩
  · cases ha.symm.trans h
    exact ⟨_, rfl⟩

/-- With no data bit set XORB is NEXTB, with or without a Register (43_stream_transform.md R62). -/
theorem exec_xorb_zero (s : State) : exec (.xorb 0x00#8) s = exec .nextb s := by
  have hdata (k : Byte) : combine 0x00#8 k = k := BitVec.zero_xor
  simp only [exec, execXorb, execNextb, hdata]

/-! ### INIT issued by the host -/

/-- The core and its host after an issued INIT (40_init.md R40). -/
def afterInit (seed taps : Word) (s : State) : State :=
  { s with
    state := coerceSeed seed
    taps := taps
    loaded := true
    rsp := some ⟨.ok, 0x00#8⟩
    received := s.received ++ [⟨.ok, 0x00#8⟩] }

theorem step_init {s : State} {seed taps : Word} {rest : List HostAction}
    (hag : s.agenda = .command (encode (.init seed taps)) :: rest) : step s = .next (afterInit seed taps { s with agenda := rest }) := by
  rw [step_of_command hag, issue, accept_command (decode_encode _), exec_init]
  rfl

/-- Seeds that coerce to one STATE leave equal machines (40_init.md R41). -/
theorem afterInit_congr {seed seed' : Word} (h : coerceSeed seed = coerceSeed seed') (taps : Word) (s : State) :
    afterInit seed taps s = afterInit seed' taps s := by rw [afterInit, afterInit, h]

/-! ### A pass of APPLY without a Register -/

theorem issue_xorb_of_not_loaded {s : State} (hl : s.loaded = false) (data : Byte) :
    issue (encode (.xorb data)) s = .next (hostTakes (raise .notLoaded s)) := by
  rw [issue, accept_command (decode_encode_xorb data), exec_of_not_loaded hl (by simp), onNext_next]

/-- The host stores nothing of a NotLoaded response and leaves the loop (43_stream_transform.md R64, Faults; log 6). -/
theorem act_apply_of_not_loaded {s : State} {base : Nat} {p : Byte} (n : Nat) (hl : s.loaded = false)
    (hp : memRead s.mem base = some p) : act (.apply base (n + 1)) s = .next (hostTakes (raise .notLoaded s)) := by
  simp only [act, applyByte, hp, issue_xorb_of_not_loaded hl, onNext_next]
  rfl

/-! ### A buffer XORed with the keystream -/

/-- `m'` is `m` with byte `i` of the buffer XORed with the keystream byte `8i` steps after `st` (43_stream_transform.md R64). -/
structure BufferXored (taps st : Word) (base n : Nat) (m m' : Memory) : Prop where
  inside : ∀ i, i < n → memRead m' (base + i) = (memRead m (base + i)).map (fun p => p ^^^ keystreamByte taps st (8 * i))
  outside : ∀ a, (a < base ∨ base + n ≤ a) → memRead m' a = memRead m a

theorem bufferXored_zero (taps st : Word) (base : Nat) (m : Memory) : BufferXored taps st base 0 m m :=
  ⟨fun i hi => absurd hi (Nat.not_lt_zero i), fun _ _ => rfl⟩

theorem bufferXored_memWrite {m : Memory} {base : Nat} {p : Byte} (hp : memRead m base = some p) (taps st : Word) :
    BufferXored taps st base 1 m (memWrite m base (p ^^^ keystreamByte taps st 0)) := by
  refine ⟨fun i hi => ?_, fun a ha => memRead_memWrite_other m base a _ (by omega)⟩
  obtain rfl : i = 0 := Nat.lt_one_iff.1 hi
  simp [hp]

/-- Two adjacent buffers, the second XORed from where the first left the register, are one buffer. -/
theorem BufferXored.append {taps st : Word} {base m n : Nat} {m₁ m₂ m₃ : Memory} (h₁ : BufferXored taps st base m m₁ m₂)
    (h₂ : BufferXored taps (advance taps (8 * m) st) (base + m) n m₂ m₃) : BufferXored taps st base (m + n) m₁ m₃ := by
  refine ⟨fun i hi => ?_, fun a ha => ?_⟩
  · by_cases him : i < m
    · rw [h₂.outside _ (by omega), h₁.inside i him]
    · obtain ⟨d, rfl⟩ := Nat.exists_eq_add_of_le (Nat.le_of_not_lt him)
      rw [← Nat.add_assoc, h₂.inside d (by omega), h₁.outside _ (by omega), keystreamByte_advance, ← Nat.mul_add]
  · rw [h₂.outside a (by omega), h₁.outside a (by omega)]

theorem BufferXored.isSome_memRead {taps st : Word} {base n : Nat} {m m' : Memory} (h : BufferXored taps st base n m m') (a : Nat) :
    (memRead m' a).isSome = (memRead m a).isSome := by
  by_cases ha : base ≤ a ∧ a < base + n
  · obtain ⟨i, rfl⟩ := Nat.exists_eq_add_of_le ha.1
    rw [h.inside i (by omega), Option.isSome_map]
  · rw [h.outside a (by omega)]

theorem BufferXored.bufferPresent {taps st : Word} {base n base' n' : Nat} {m m' : Memory} (h : BufferXored taps st base n m m')
    (hm : BufferPresent m base' n') : BufferPresent m' base' n' := fun i hi => (h.isSome_memRead _).trans (hm i hi)

/-- XORing with the same keystream twice restores every byte (43_stream_transform.md R66). -/
theorem BufferXored.restores {taps st : Word} {base n : Nat} {m₁ m₂ m₃ : Memory} (h₁ : BufferXored taps st base n m₁ m₂)
    (h₂ : BufferXored taps st base n m₂ m₃) (a : Nat) : memRead m₃ a = memRead m₁ a := by
  by_cases ha : base ≤ a ∧ a < base + n
  · obtain ⟨i, rfl⟩ := Nat.exists_eq_add_of_le ha.1
    rw [h₂.inside i (by omega), h₁.inside i (by omega)]
    cases memRead m₁ (base + i) with
    | none => rfl
    | some p => simp
  · rw [h₂.outside a (by omega), h₁.outside a (by omega)]

theorem bufferPresent_left {m : Memory} {base k n : Nat} (h : BufferPresent m base (k + n)) : BufferPresent m base k :=
  fun i hi => h i (Nat.lt_add_right n hi)

theorem bufferPresent_right {m : Memory} {base k n : Nat} (h : BufferPresent m base (k + n)) : BufferPresent m (base + k) n := by
  intro i hi
  rw [Nat.add_assoc]
  exact h (k + i) (Nat.add_lt_add_left hi k)

/-! ### APPLY as the passes of its loop -/

/-- What `n` passes of APPLY from `base` do to a core, its host's memory and its host's record (43_stream_transform.md R64, R65). -/
structure Applied (base n : Nat) (s t : State) : Prop where
  mem : BufferXored s.taps s.state base n s.mem t.mem
  state : t.state = advance s.taps (8 * n) s.state
  taps : t.taps = s.taps
  loaded : t.loaded = s.loaded
  received : ∃ rs, t.received = s.received ++ rs ∧ rs.length = n ∧ ∀ r ∈ rs, r.st = .ok

theorem applied_zero (base : Nat) (s : State) : Applied base 0 s s :=
  ⟨bufferXored_zero _ _ base s.mem, rfl, rfl, rfl, [], by simp⟩

theorem applied_afterApplyByte {s : State} {base : Nat} {p : Byte} (n : Nat) (hp : memRead s.mem base = some p) :
    Applied base 1 s (afterApplyByte base n p s) :=
  ⟨bufferXored_memWrite hp s.taps s.state, rfl, rfl, rfl, _, rfl, rfl, by simp⟩

theorem Applied.append {base m n : Nat} {s t u : State} (h₁ : Applied base m s t) (h₂ : Applied (base + m) n t u) :
    Applied base (m + n) s u := by
  obtain ⟨hmem, hst, htp, hl, rs, hrec, hlen, hok⟩ := h₁
  obtain ⟨hmem', hst', htp', hl', qs, hrec', hlen', hok'⟩ := h₂
  rw [htp, hst] at hmem' hst'
  refine ⟨hmem.append hmem', ?_, htp'.trans htp, hl'.trans hl, rs ++ qs, ?_, by simp [hlen, hlen'], fun r hr => ?_⟩
  · rw [hst', ← advance_add, ← Nat.mul_add]
  · rw [hrec', hrec, List.append_assoc]
  · exact (List.mem_append.1 hr).elim (hok r) (hok' r)

/-- The passes do not depend on how many are to follow or on what the host does after them: one `t` serves every `n` and `rest`. -/
theorem exists_applied_runSteps (m : Nat) {s : State} {base : Nat} (hl : s.loaded = true) (hm : BufferPresent s.mem base m) :
    ∃ t, Applied base m s t ∧ ∀ n rest, runSteps m { s with agenda := .apply base (m + n) :: rest } =
      .next { t with agenda := .apply (base + m) n :: rest } := by
  induction m generalizing s base with
  | zero => exact ⟨s, applied_zero base s, fun n rest => by rw [Nat.zero_add]; rfl⟩
  | succ m ih =>
    obtain ⟨p, hp⟩ : ∃ p, memRead s.mem base = some p := Option.isSome_iff_exists.1 (hm 0 (Nat.succ_pos m))
    have hpass := applied_afterApplyByte m hp
    rw [Nat.add_comm] at hm
    obtain ⟨t, ht, hrun⟩ := ih (s := afterApplyByte base m p s) (base := base + 1) (hpass.loaded.trans hl)
      (hpass.mem.bufferPresent (bufferPresent_right hm))
    refine ⟨t, Nat.add_comm 1 m ▸ hpass.append ht, fun n rest => ?_⟩
    have hstep : step { s with agenda := .apply base (m + 1 + n) :: rest } =
        .next { afterApplyByte base m p s with agenda := .apply (base + 1) (m + n) :: rest } := by
      rw [Nat.add_right_comm]
      exact step_apply_of_loaded (s := { s with agenda := .apply base (m + n + 1) :: rest }) hl rfl hp
    rw [runSteps_succ m hstep, hrun, Nat.add_assoc base, Nat.add_comm 1 m]

/-- APPLY with the exit of its loop (log 6). -/
theorem runSteps_apply {s : State} {base n : Nat} {rest : List HostAction} (hag : s.agenda = .apply base n :: rest)
    (hl : s.loaded = true) (hm : BufferPresent s.mem base n) :
    ∃ t, runSteps (n + 1) s = .next t ∧ Applied base n s t ∧ t.agenda = rest := by
  obtain ⟨t, ht, hrun⟩ := exists_applied_runSteps n hl hm
  have hpasses : runSteps n s = .next { t with agenda := .apply (base + n) 0 :: rest } := by
    rw [← hrun 0 rest, Nat.add_zero, ← hag]
  refine ⟨quiet { t with agenda := rest }, ?_, ⟨ht.mem, ht.state, ht.taps, ht.loaded, ht.received⟩, rfl⟩
  rw [runSteps_add_of_next hpasses, runSteps_succ 0 (step_apply_zero rfl)]
  rfl

/-- INIT, then APPLY: the buffer is XORed with the keystream from the coerced seed (43_stream_transform.md R64). -/
theorem runSteps_init_apply {s : State} {seed taps : Word} {base n : Nat} {rest : List HostAction}
    (hag : s.agenda = .command (encode (.init seed taps)) :: .apply base n :: rest) (hm : BufferPresent s.mem base n) :
    ∃ t, runSteps (n + 2) s = .next t ∧ BufferXored taps (coerceSeed seed) base n s.mem t.mem ∧ t.agenda = rest := by
  obtain ⟨t, hrun, happ, hrest⟩ := runSteps_apply (s := afterInit seed taps { s with agenda := .apply base n :: rest }) rfl rfl hm
  exact ⟨t, (runSteps_succ (n + 1) (step_init hag)).trans hrun, happ.mem, hrest⟩

/-- Two APPLYs over adjacent buffers run to the very state that one APPLY over both runs to (43_stream_transform.md R70): after `m` passes
they differ only by the exit of the first loop, which shows on the port until the next transition. -/
theorem runSteps_two_applies {s : State} {base m : Nat} (n : Nat) (hl : s.loaded = true) (hm : BufferPresent s.mem base m) :
    runSteps (m + n + 2) { s with agenda := [.apply base m, .apply (base + m) n] } =
      runSteps (m + n + 1) { s with agenda := [.apply base (m + n)] } := by
  obtain ⟨t, -, hrun⟩ := exists_applied_runSteps m hl hm
  have htwo := hrun 0 [.apply (base + m) n]
  rw [Nat.add_zero] at htwo
  rw [Nat.add_assoc, Nat.add_assoc, runSteps_add_of_next htwo, runSteps_add_of_next (hrun n []),
    runSteps_succ (n + 1) (step_apply_zero rfl)]
  exact runSteps_ignores_port n { t with agenda := [.apply (base + m) n] } none

end Sys2Proof.Machine
end

section
/-! SUPPORT. The statements about XORB and APPLY (43_stream_transform.md), settled. -/
namespace Sys2Proof.Proofs
open Sys2Proof.Machine

/-- Settles O30, by induction on the passes of the loop: each XORs one byte, and adjacent buffers join. -/
theorem applyTransformsBuffer : Obligations.ApplyTransformsBuffer := by
  intro n s rest base hag hl hm
  obtain ⟨t, hrun, ⟨⟨hin, hout⟩, hst, htp, hld, hrec⟩, hrest⟩ := runSteps_apply hag hl hm
  exact ⟨t, hrun, hin, hout, hst, htp, hld.trans hl, hrest, hrec⟩

/-- Settles O33: both INITs leave the same STATE and TAPS, so both APPLYs XOR with one keystream. -/
theorem roundTripRestoresBuffer : Obligations.RoundTripRestoresBuffer := by
  intro s rest base n seed seed' taps hag hseed hm
  obtain ⟨t, hrun, hxor, htag⟩ := runSteps_init_apply hag hm
  obtain ⟨u, hrun', hxor', hrest⟩ := runSteps_init_apply htag (hxor.bufferPresent hm)
  refine ⟨u, ?_, hrest, hxor.restores (hseed ▸ hxor')⟩
  rw [show 2 * n + 4 = (n + 2) + (n + 2) by omega, runSteps_add_of_next hrun, hrun']

/-- Settles O34: the two INITs leave equal machines. -/
theorem zeroSeedSameRuns : Obligations.ZeroSeedSameRuns := by
  intro k s taps rest
  have hseed : coerceSeed 0x0000#16 = coerceSeed 0x0001#16 := rfl
  rw [runSteps_succ k (step_init rfl), runSteps_succ k (step_init rfl), afterInit_congr hseed]

/-- Settles O36: both runs end in one state. -/
theorem applyContinuesTheKeystream : Obligations.ApplyContinuesTheKeystream := by
  intro s base m n hl hm
  obtain ⟨u, hu, -⟩ := runSteps_apply (s := { s with agenda := [.apply base (m + n)] }) rfl hl hm
  exact ⟨u, u, (runSteps_two_applies n hl (bufferPresent_left hm)).trans hu, hu, rfl, rfl, rfl, fun _ => rfl⟩

/-- Settles O37: the first sixteen outputs are the bits of STATE, whatever the mask is. -/
theorem seedAndTapSensitivity : Obligations.SeedAndTapSensitivity := by
  refine ⟨fun taps st j hj => ?_, fun taps taps' st => ⟨?_, ?_⟩⟩
  · rw [outputAt_of_lt_sixteen taps _ hj, outputAt_of_lt_sixteen taps _ hj]
    simp [hj]
  · rw [keystreamByte_eq_extractLsb' _ _ (Nat.zero_le 8), keystreamByte_eq_extractLsb' _ _ (Nat.zero_le 8)]
  · rw [keystreamByte_eq_extractLsb' _ _ (Nat.le_refl 8), keystreamByte_eq_extractLsb' _ _ (Nat.le_refl 8)]

/-- Settles O26: what XORB answers on a loaded core and on one that is not; its word as the encoding that decodes to it. -/
theorem xorbCommand : Obligations.XorbCommand := by
  refine ⟨fun data s hl => exec_xorb_of_loaded hl data, fun data s hl => exec_of_not_loaded hl (by simp), fun data => ?_,
    exec_xorb_zero, fun data s hl hs => ⟨_, exec_xorb_of_loaded hl data, ?_⟩, fun s hl => ⟨_, exec_xorb_of_loaded hl 0xFF#8, ?_⟩,
    by decide⟩
  · exact (congrArg decode (encode_xorb_eq_append data).symm).trans (decode_encode (.xorb data))
  · rw [hs, keystreamByte_zero_state, BitVec.xor_zero]
  · rw [← BitVec.allOnes_xor]
    rfl

/-- Settles O27, from what each of the two answers on a loaded core. -/
theorem xorbIsNextbXorData : Obligations.XorbIsNextbXorData := fun data _ hl =>
  ⟨_, _, _, exec_nextb_of_loaded hl, exec_xorb_of_loaded hl data, rfl, rfl⟩

/-- Settles O28: what each of the three answers on a loaded core; a fault is a `raise`, which keeps STATE. -/
theorem stepsEachCommandTakes : Obligations.StepsEachCommandTakes := by
  refine ⟨fun s hl => ⟨?_, ?_, fun data => ?_⟩, fun w s t r h hr hst => ?_⟩
  · exact ⟨_, exec_step_of_loaded hl, rfl⟩
  · exact ⟨_, exec_nextb_of_loaded hl, rfl⟩
  · exact ⟨_, exec_xorb_of_loaded hl data, rfl⟩
  · obtain ⟨f, rfl⟩ := accept_raises_of_not_ok h hr hst
    rfl

/-- Settles O29: one pass answers, and the byte it writes is read back at `base` alone. -/
theorem applyOneByte : Obligations.ApplyOneByte := by
  intro s rest base n p hag hl hp
  exact ⟨_, step_apply_of_loaded hl hag hp, memRead_memWrite_same _ _ _, fun a ha => memRead_memWrite_other _ _ _ _ ha, rfl, rfl, hl,
    rfl, rfl⟩

/-- Settles O31: the pass raises NotLoaded, of which the host stores nothing. -/
theorem applyStopsOnNotLoaded : Obligations.ApplyStopsOnNotLoaded := by
  intro s rest base n hag hl hm
  obtain ⟨p, hp⟩ := Option.isSome_iff_exists.1 hm
  exact (step_of_agenda_cons hag).trans (act_apply_of_not_loaded (s := { s with agenda := rest }) n hl hp)

/-- Settles O35: the loop's exit, which reads neither LOADED nor the memory. -/
theorem emptyBufferDoesNothing : Obligations.EmptyBufferDoesNothing := fun _ _ _ hag => step_apply_zero hag

end Sys2Proof.Proofs
end

section
/-! SUPPORT. Rules for the proofs of the statements about faults (60_exceptions.md): when a command succeeds, what follows a raised fault,
and that responses stay sound. -/
namespace Sys2Proof.Machine

/-! ### When a command succeeds -/

theorem exec_ok_of_loaded (i : Instr) {s : State} (hl : s.loaded = true) : ∃ t d, exec i s = .next t ∧ t.rsp = some ⟨.ok, d⟩ := by
  cases i with
  | init seed taps => exact ⟨_, _, exec_init seed taps s, rfl⟩
  | step => exact ⟨_, _, exec_step_of_loaded hl, rfl⟩
  | nextb => exact ⟨_, _, exec_nextb_of_loaded hl, rfl⟩
  | xorb data => exact ⟨_, _, exec_xorb_of_loaded hl data, rfl⟩

/-- A loaded core stays loaded under every word (60_exceptions.md R73). -/
theorem loaded_of_accept {w : CmdWord} {s t : State} (hl : s.loaded = true) (h : accept w s = .next t) : t.loaded = true := by
  rcases accept_constructs_or_clocks h with ⟨seed, taps, -, hc⟩ | hc
  · exact hc.loaded
  · exact hc.loaded.trans hl

/-- The three ways an accepted word ends (60_exceptions.md R72, R73, R76): the decoder's fault, the LOADED check's, or OK. -/
theorem accept_outcomes (w : CmdWord) (s : State) :
    (∃ op, decode w = .illegal op ∧ accept w s = .next (raise .illegalCommand s)) ∨
    (∃ i, decode w = .command i ∧ s.loaded = false ∧ (∀ seed taps, i ≠ .init seed taps) ∧
      accept w s = .next (raise .notLoaded s)) ∨
    (∃ i t d, decode w = .command i ∧ accept w s = .next t ∧ t.rsp = some ⟨.ok, d⟩) := by
  rcases accept_cases w s with ⟨i, hd, ha⟩ | hillegal
  · rw [ha]
    cases hl : s.loaded with
    | true =>
      obtain ⟨t, d, ht, hr⟩ := exec_ok_of_loaded i hl
      exact .inr (.inr ⟨i, t, d, hd, ht, hr⟩)
    | false =>
      by_cases hinit : ∃ seed taps, i = .init seed taps
      · obtain ⟨seed, taps, rfl⟩ := hinit
        exact .inr (.inr ⟨_, _, _, hd, exec_init seed taps s, rfl⟩)
      · have hi : ∀ seed taps, i ≠ .init seed taps := fun seed taps h => hinit ⟨seed, taps, h⟩
        exact .inr (.inl ⟨i, hd, rfl, hi, exec_of_not_loaded hl hi⟩)
  · exact .inl hillegal

/-! ### After a raised fault -/

/-- The host stores nothing of a fault response (43_stream_transform.md R64, Faults). -/
theorem storeResult_raise (base n : Nat) (f : CoreFault) (s : State) : storeResult base n (raise f s) = raise f s := by
  cases f <;> rfl

/-- A word that faults, issued from the agenda, leaves its response on the port and in the host's record, and nothing else. -/
theorem step_of_raise {w : CmdWord} {s : State} {f : CoreFault} (h : accept w s = .next (raise f s)) (rest : List HostAction) :
    step { s with agenda := .command w :: rest } = .next { s with
      agenda := rest
      rsp := some ⟨f.status, 0x00#8⟩
      received := s.received ++ [⟨f.status, 0x00#8⟩] } := by
  have hagenda := accept_of_sameRegister (s := s) (s' := { s with agenda := rest }) ⟨rfl, rfl, rfl⟩ h
  rw [step_of_command rfl, issue, hagenda]
  rfl

/-- What the port shows and what the host has taken before make no difference to an issued word: it adds the same response to any
record. -/
theorem issue_of_any_record (w : CmdWord) (s : State) :
    ∃ t q, issue w s = .next t ∧ t.received = s.received ++ [q] ∧
      ∀ rsp rs, issue w { s with rsp := rsp, received := rs } = .next { t with received := rs ++ [q] } := by
  obtain ⟨t, q, ha, hi, hag, hrec, hm, hq, -⟩ := issue_answers w s
  refine ⟨hostTakes t, q, hi, by rw [hostTakes_received, hrec, hq]; rfl, fun rsp rs => ?_⟩
  have hrecord := accept_of_sameRegister (s := s) (s' := { s with rsp := rsp, received := rs }) ⟨rfl, rfl, rfl⟩ ha
  have hport : (t.withHostOf { s with rsp := rsp, received := rs }).rsp = some q := hq
  rw [issue, hrecord, onNext_next, hostTakes_of_rsp hport, hostTakes_of_rsp hq]
  simp only [State.withHostOf, hag, hm]

/-! ### Responses stay sound -/

@[simp] theorem storeResult_rsp (base n : Nat) (s : State) : (storeResult base n s).rsp = s.rsp := by
  rcases storeResult_cases base n s with ⟨c, -, hs⟩ | ⟨-, hs⟩ <;> rw [hs]

@[simp] theorem storeResult_received (base n : Nat) (s : State) : (storeResult base n s).received = s.received := by
  rcases storeResult_cases base n s with ⟨c, -, hs⟩ | ⟨-, hs⟩ <;> rw [hs]

/-- An edge without a response adds nothing to what the host has taken. -/
theorem responsesSound_of_no_response {s t : State} (hs : ResponsesSound s) (hrsp : t.rsp = none)
    (hrec : t.received = s.received) : ResponsesSound t :=
  ⟨by simp [hrsp], hrec ▸ hs.2⟩

/-- An issued word adds one response, which is sound. -/
theorem responsesSound_of_issue {w : CmdWord} {s t : State} (hs : ResponsesSound s) (h : issue w s = .next t) :
    ResponsesSound t := by
  obtain ⟨u, r, -, hi, -, hrec, -, hr, hsound⟩ := issue_answers w s
  cases hi.symm.trans h
  have hport : ∀ q ∈ u.rsp, q.sound := by
    rw [hr]
    rintro q ⟨⟩
    exact hsound
  refine ⟨by rwa [hostTakes_rsp], fun q hq => ?_⟩
  rw [hostTakes_received, hrec, List.mem_append, Option.mem_toList] at hq
  exact hq.elim (hs.2 q) (hport q)

theorem responsesSound_of_act {a : HostAction} {s t : State} (hs : ResponsesSound s) (h : act a s = .next t) :
    ResponsesSound t := by
  rcases act_cases a s with ⟨ha, -⟩ | ⟨ha, -⟩ | ⟨w, -, ha⟩ | ⟨base, n, p, -, -, ha⟩ | ⟨base, n, -, -, ha⟩
  · cases ha.symm.trans h
    exact responsesSound_of_no_response hs rfl rfl
  · cases ha.symm.trans h
    exact responsesSound_of_no_response hs rfl rfl
  · exact responsesSound_of_issue hs (ha.symm.trans h)
  · obtain ⟨u, -, -, hi, -⟩ := issue_answers (encode (.xorb p)) s
    rw [hi, onNext_next] at ha
    cases ha.symm.trans h
    rw [ResponsesSound, storeResult_rsp, storeResult_received]
    exact responsesSound_of_issue hs hi
  · cases ha.symm.trans h

end Sys2Proof.Machine
end

section
/-! SUPPORT. The statements about faults (60_exceptions.md), settled. -/
namespace Sys2Proof.Proofs
open Sys2Proof.Machine

/-- Settles O38: of the three ways a word ends only the LOADED check gives NotLoaded, and a loaded core passes it. -/
theorem notLoadedFault : Obligations.NotLoadedFault := by
  refine ⟨fun i s hl hi => exec_of_not_loaded hl hi, by decide, fun w s t r h hr hst => ?_, fun w s hl => ?_⟩
  · rcases accept_outcomes w s with ⟨op, -, ha⟩ | ⟨i, hd, hl, hi, -⟩ | ⟨i, u, d, -, ha, hu⟩
    · cases ha.symm.trans h
      cases hr
      cases hst
    · exact ⟨hl, fun seed taps hinit => hi seed taps (Decoded.command.inj (hd.symm.trans hinit))⟩
    · cases ha.symm.trans h
      cases hu.symm.trans hr
      cases hst
  · rcases accept_outcomes w s with ⟨op, -, ha⟩ | ⟨i, -, hfalse, -, -⟩ | ⟨i, t, d, -, ha, hr⟩
    · exact ⟨_, _, ha, hl, rfl, by decide⟩
    · cases hl.symm.trans hfalse
    · exact ⟨t, _, ha, loaded_of_accept hl ha, hr, nofun⟩

/-- Settles O39: a `raise` writes the port alone, which no word reads; a response other than OK comes from a `raise`. -/
theorem faultsArePrecise : Obligations.FaultsArePrecise := by
  refine ⟨fun f s => ⟨rfl, fun w => accept_ignores_port w s _, fun base n => ?_⟩, by decide, fun w s t r h hr hst => ?_⟩
  · rw [storeResult_raise, raise_mem]
  · obtain ⟨f, rfl⟩ := accept_raises_of_not_ok h hr hst
    cases hr
    exact ⟨rfl, f, rfl⟩

/-- Settles O40: decoding comes before the LOADED check, and a reset does not look at the word offered with it. -/
theorem faultPriority : Obligations.FaultPriority := by
  refine ⟨fun w op s hd => ⟨_, accept_illegal hd s, rfl⟩, fun w i s hd => ?_, fun s w rest => ⟨rfl, _, rfl, rfl, rfl, rfl⟩⟩
  rcases accept_outcomes w s with ⟨op, hillegal, -⟩ | ⟨j, -, -, -, ha⟩ | ⟨j, t, d, -, ha, hr⟩
  · cases hd.symm.trans hillegal
  · exact ⟨_, _, ha, rfl, by decide⟩
  · exact ⟨t, _, ha, hr, nofun⟩

/-- Settles O41: the fault leaves only its response, on a port that `v` does not read and in a record that `v` only adds to. -/
theorem faultsAreNotSticky : Obligations.FaultsAreNotSticky := by
  intro w v s t r rest h hr hst
  obtain ⟨f, rfl⟩ := accept_raises_of_not_ok h hr hst
  cases hr
  obtain ⟨u, q, hu, hrec, hrecord⟩ := issue_of_any_record v { s with agenda := rest }
  have hafter := (runSteps_succ 1 (step_of_raise h (.command v :: rest))).trans
    (runSteps_succ 0 ((step_of_command rfl).trans (hrecord _ _)))
  exact ⟨_, u, hafter, runSteps_succ 0 ((step_of_command rfl).trans hu), rfl, q, List.append_assoc .., hrec⟩

/-- Settles O54: a transition adds to the port and to the record at most the response of one issued word, which is sound. -/
theorem responsesStaySound : Obligations.ResponsesStaySound := by
  intro s t hs h
  cases hag : s.agenda with
  | nil =>
    cases (step_of_agenda_nil hag).symm.trans h
    exact responsesSound_of_no_response hs rfl rfl
  | cons a rest =>
    rw [step_of_agenda_cons hag] at h
    exact responsesSound_of_act (s := { s with agenda := rest }) hs h

/-- Settles O42: INIT constructs its Register unconditionally, and on a loaded core every command passes the LOADED check. -/
theorem loadedCommandsSucceed : Obligations.LoadedCommandsSucceed :=
  ⟨fun seed taps s => ⟨_, _, exec_init seed taps s, rfl⟩, fun i _ hl => exec_ok_of_loaded i hl⟩

end Sys2Proof.Proofs
end

section
/-! SUPPORT. Rules for the proofs of the statements about reset and hazards (70_reset_and_hazards.md): a reset taken off the agenda, and
that the host's APPLYs stay inside its memory. -/
namespace Sys2Proof.Machine

/-! ### A reset -/

/-- Both resets, alone or in the middle of a command, reset the core and nothing else (70_reset_and_hazards.md R82, R84). -/
theorem step_of_reset {s : State} {a : HostAction} {rest : List HostAction} (hag : s.agenda = a :: rest)
    (hr : a.isReset = true) : step s = .next (resetCore { s with agenda := rest }) := by
  rw [step_of_agenda_cons hag]
  cases a with
  | reset offered => rfl
  | abandon w => rfl
  | command w => cases hr
  | apply base n => cases hr
  | idle => cases hr

/-! ### The host's APPLYs stay inside its memory -/

/-- A byte of the host's memory stays present: a pass of APPLY replaces a byte and removes none (20_memory.md R21). -/
theorem step_keeps_present {s t : State} (h : step s = .next t) {a : Nat} (ha : (memRead s.mem a).isSome = true) :
    (memRead t.mem a).isSome = true := by
  rcases step_mem h with hm | ⟨base, n, rest, c, -, hm⟩ <;> rw [hm]
  · exact ha
  · exact memRead_memWrite_isSome s.mem base a c ha

theorem HostAction.inBounds_of_present {m m' : Memory} (hm : ∀ a, (memRead m a).isSome = true → (memRead m' a).isSome = true)
    {b : HostAction} (hb : b.inBounds m) : b.inBounds m' := by
  cases b with
  | apply base n => exact fun i hi => hm _ (hb i hi)
  | command w => trivial
  | idle => trivial
  | reset offered => trivial
  | abandon w => trivial

/-- The rest of an APPLY after its first byte reads only bytes that the whole reads. -/
theorem HostAction.inBounds_apply_tail {m : Memory} {base n : Nat} (h : (HostAction.apply base (n + 1)).inBounds m) :
    (HostAction.apply (base + 1) n).inBounds m :=
  bufferPresent_right (Nat.add_comm n 1 ▸ h)

theorem storeResult_agenda (base n : Nat) (s : State) :
    (storeResult base n s).agenda = s.agenda ∨ (storeResult base n s).agenda = .apply (base + 1) n :: s.agenda := by
  rcases storeResult_cases base n s with ⟨c, -, hs⟩ | ⟨-, hs⟩ <;> rw [hs]
  · exact .inr rfl
  · exact .inl rfl

theorem issue_agenda {w : CmdWord} {s t : State} (h : issue w s = .next t) : t.agenda = s.agenda := by
  obtain ⟨u, -, -, hi, hag, -⟩ := issue_answers w s
  cases hi.symm.trans h
  simpa using hag

/-- The host's actions leave what it does after them; only a pass of APPLY puts something before that, its own rest. -/
theorem act_agenda {a : HostAction} {s t : State} (h : act a s = .next t) :
    t.agenda = s.agenda ∨ ∃ base n, a = .apply base (n + 1) ∧ t.agenda = .apply (base + 1) n :: s.agenda := by
  rcases act_cases a s with ⟨ha, -⟩ | ⟨ha, -⟩ | ⟨w, -, ha⟩ | ⟨base, n, p, rfl, -, ha⟩ | ⟨base, n, -, -, ha⟩
  · cases ha.symm.trans h
    exact .inl rfl
  · cases ha.symm.trans h
    exact .inl rfl
  · exact .inl (issue_agenda (ha.symm.trans h))
  · obtain ⟨u, -, -, hi, -⟩ := issue_answers (encode (.xorb p)) s
    rw [hi, onNext_next] at ha
    cases ha.symm.trans h
    rw [← issue_agenda hi]
    rcases storeResult_agenda base n (hostTakes u) with hag | hag
    · exact .inl hag
    · exact .inr ⟨base, n, rfl, hag⟩
  · cases ha.symm.trans h

/-- What the host has in hand after a transition it had in hand before, or it is the rest of an APPLY it had in hand. -/
theorem mem_agenda_of_step {s t : State} (h : step s = .next t) {b : HostAction} (hb : b ∈ t.agenda) :
    b ∈ s.agenda ∨ ∃ base n, .apply base (n + 1) ∈ s.agenda ∧ b = .apply (base + 1) n := by
  cases hag : s.agenda with
  | nil =>
    cases (step_of_agenda_nil hag).symm.trans h
    exact .inl (hag ▸ hb)
  | cons a rest =>
    rw [step_of_agenda_cons hag] at h
    rcases act_agenda h with ht | ⟨base, n, rfl, ht⟩ <;> rw [ht] at hb
    · exact .inl (List.mem_cons_of_mem a hb)
    · rcases List.mem_cons.1 hb with hrest | hb
      · exact .inr ⟨base, n, List.mem_cons_self, hrest⟩
      · exact .inl (List.mem_cons_of_mem _ hb)

theorem step_keeps_agendaInBounds {s t : State} (hs : AgendaInBounds s) (h : step s = .next t) : AgendaInBounds t := by
  intro b hb
  refine HostAction.inBounds_of_present (fun _ => step_keeps_present h) ?_
  rcases mem_agenda_of_step h hb with hmem | ⟨base, n, hmem, rfl⟩
  · exact hs b hmem
  · exact HostAction.inBounds_apply_tail (hs _ hmem)

/-- The one stop, a pass of APPLY over an absent byte, needs an APPLY that leaves the host's memory. -/
theorem step_answers_of_agendaInBounds {s : State} (hs : AgendaInBounds s) : ∃ t, step s = .next t := by
  rcases step_answers_or_absent s with ht | ⟨base, n, rest, hag, habsent⟩
  · exact ht
  · have happly : BufferPresent s.mem base (n + 1) := hs (.apply base (n + 1)) (hag ▸ List.mem_cons_self)
    have hbyte := happly 0 n.succ_pos
    simp [habsent] at hbyte

end Sys2Proof.Machine
end

section
/-! SUPPORT. The statements about reset and hazards (70_reset_and_hazards.md), settled. -/
namespace Sys2Proof.Proofs
open Sys2Proof.Machine

/-- Settles O55, by induction on the transitions: an agenda inside the memory lets a transition answer, which keeps it inside. -/
theorem inBoundsRunNeverStops : Obligations.InBoundsRunNeverStops := by
  intro k
  induction k with
  | zero => exact fun s hs => ⟨s, rfl, hs⟩
  | succ k ih =>
    intro s hs
    obtain ⟨u, hu⟩ := step_answers_of_agendaInBounds hs
    rw [runSteps_succ k hu]
    exact ih u (step_keeps_agendaInBounds hs hu)

/-- Settles O44, from what a reset at the head of the agenda leaves. -/
theorem resetClearsLoaded : Obligations.ResetClearsLoaded := fun _ _ _ hag =>
  ⟨_, step_of_reset hag rfl, resetCore_loaded _, resetCore_rsp _, rfl, rfl, resetCore_agenda _, resetCore_received _, resetCore_mem _⟩

/-- Settles O45: an abandoned command and a reset are one and the same reset of the core. -/
theorem abandonedCommandIsReset : Obligations.AbandonedCommandIsReset := by
  intro s w rest
  have habandon := step_of_reset (s := { s with agenda := .abandon w :: rest }) rfl rfl
  have hreset := step_of_reset (s := { s with agenda := .reset none :: rest }) rfl rfl
  exact ⟨habandon.trans hreset.symm, _, habandon, resetCore_loaded _, resetCore_rsp _, resetCore_received _⟩

end Sys2Proof.Proofs
end

section
/-! SUPPORT. Rules for the proof of the statement about the text of commands (30_encoding.md R38): what a line says, by its parts. -/
namespace Sys2Proof.Machine

/-- A comment runs to the end of the line. -/
theorem assembleLine_comment (cs : List Char) : assembleLine (';' :: cs) = some .empty := rfl

/-- A line that is not empty means its mnemonic, applied to the operands behind it. -/
theorem assembleLine_eq_lineAction {line cs : List Char} {c : Char} (ops : List Nat) (hbody : trimBlanks (cutAt ';' line).1 = c :: cs)
    (hops : operands (trimBlanks ((c :: cs).dropWhile (fun c => !isBlank c))) = some ops) :
    assembleLine line = (lineAction ((c :: cs).takeWhile (fun c => !isBlank c)) ops).map .action := by
  rw [assembleLine, hbody]
  simp only [hops]

theorem lineAction_init (seed taps : Nat) : lineAction ['I', 'N', 'I', 'T'] [seed, taps] =
    some (.command (encode (.init (BitVec.ofNat 16 seed) (BitVec.ofNat 16 taps)))) := rfl

theorem lineAction_step : lineAction ['S', 'T', 'E', 'P'] [] = some (.command (encode .step)) := rfl

theorem lineAction_nextb : lineAction ['N', 'E', 'X', 'T', 'B'] [] = some (.command (encode .nextb)) := rfl

theorem lineAction_xorb (data : Nat) : lineAction ['X', 'O', 'R', 'B'] [data] = some (.command (encode (.xorb (BitVec.ofNat 8 data)))) :=
  rfl

/-- Of the mnemonics, STEP and NEXTB alone take no operand. -/
theorem lineAction_unknown {name : List Char} (hstep : name ≠ ['S', 'T', 'E', 'P']) (hnextb : name ≠ ['N', 'E', 'X', 'T', 'B']) :
    lineAction name [] = none := by
  simp [lineAction, hstep, hnextb]

end Sys2Proof.Machine
end

section
/-! SUPPORT. The statements about written-out words and lines of text (30_encoding.md), settled. -/
namespace Sys2Proof.Proofs
open Sys2Proof.Machine

/-- Settles O2: each word decodes by its opcode, and the fields its command uses are the operands. -/
theorem writtenOutWordsDecode : Obligations.WrittenOutWordsDecode :=
  ⟨decode_of_opInit rfl, decode_of_opInit rfl,
    decode_of_opStep rfl, decode_of_opStep rfl,
    decode_of_opNextb rfl, decode_of_opNextb rfl,
    decode_of_opXorb rfl, decode_of_opXorb rfl,
    decode_of_reserved (by decide), decode_of_reserved (by decide), decode_of_reserved (by decide), decode_of_reserved (by decide)⟩

/-- Settles O6: each line is cut into its mnemonic and its operands, and the mnemonic's command is encoded. -/
theorem textLinesAssemble : Obligations.TextLinesAssemble := by
  refine ⟨?init, ?step, ?nextb, ?xorbHex, ?xorbDecimal, assembleLine_comment _, ?unknown⟩
  case init => exact (assembleLine_eq_lineAction [0xACE1, 0xB400] rfl rfl).trans (congrArg _ (lineAction_init _ _))
  case step => exact (assembleLine_eq_lineAction [] rfl rfl).trans (congrArg _ lineAction_step)
  case nextb => exact (assembleLine_eq_lineAction [] rfl rfl).trans (congrArg _ lineAction_nextb)
  case xorbHex => exact (assembleLine_eq_lineAction [0x48] rfl rfl).trans (congrArg _ (lineAction_xorb _))
  case xorbDecimal => exact (assembleLine_eq_lineAction [72] rfl rfl).trans (congrArg _ (lineAction_xorb _))
  case unknown => exact (assembleLine_eq_lineAction [] rfl rfl).trans (congrArg _ (lineAction_unknown (by decide) (by decide)))

end Sys2Proof.Proofs
end
